-- ==== Sys2Proof/Word.lean ====
section
/-! DEFINITION. The words the block handles: bytes of the frame buffer, 16-bit channel slots,
32-bit header words, 7-bit brightness registers and 8-bit command tags. -/

namespace Sys2Proof

/-- One byte of the frame buffer (10_state.md R26). -/
abbrev Byte := BitVec 8

/-- One 16-bit PWM value, the content of a channel slot (30_encoding.md R86). -/
abbrev Slot := BitVec 16

/-- One 32-bit big-endian word of the buffer, such as a chip's header (30_encoding.md R80). -/
abbrev Word := BitVec 32

/-- A 7-bit global brightness value (10_state.md R27). -/
abbrev Brightness := BitVec 7

/-- The 8-bit command tag (30_encoding.md R90). -/
abbrev Tag := BitVec 8

end Sys2Proof
end

