-- ==== Sys2Proof/Config.lean ====
section
/-! DEFINITION. What an implementation fixes (00_scope.md R9): the parameters with their defaults, the
OPEN bus configuration, and the free answers of the two oracles of R17. -/

namespace Sys2Proof

/-- The operand of CONSTRUCT that names a bus. The spec leaves its content OPEN (00_scope.md R9,
60_exceptions.md R218): here it is an identity that no rule of the model looks into. -/
structure BusConfig where
  id : Nat
deriving DecidableEq, Repr, Inhabited

/-- An answer of the oracle `BusOpen(cfg)` (00_scope.md R17). -/
inductive BusOpenAnswer where
  | ok
  | fail
deriving DecidableEq, Repr, Inhabited

/-- An answer of the oracle `Transmit(bytes)` (00_scope.md R17). -/
inductive TransmitAnswer where
  | ok
  | fault
deriving DecidableEq, Repr, Inhabited

/-- The conversion parameter ROUND_MODE of 00_scope.md R9: exact rationals rounded half to even
(R131), or the named alternative `PctToPwm_ieee` of 41_channel.md R141. -/
inductive PercentConversion where
  | exactHalfEven
  | binary64
deriving DecidableEq, Repr, Inhabited

/-- The parameter WIRE_BIT_ORDER (00_scope.md R9, 30_encoding.md R89). -/
inductive WireBitOrder where
  | msbFirst
  | lsbFirst
deriving DecidableEq, Repr, Inhabited

/-- The parameter BUS_MODE: clock polarity, phase and rate (00_scope.md R9, decision D21). The spec
leaves it OPEN and no rule reads it, so each part is an identity. DESIGN CHOICE (log entry 9). -/
structure BusMode where
  polarity : Nat
  phase : Nat
  rate : Nat
deriving DecidableEq, Repr

/-- A parameter that the spec names, leaves OPEN and reads in no rule: an identity. DESIGN CHOICE
(log entry 9). -/
structure OpenParameter where
  id : Nat
deriving DecidableEq, Repr

/-- The parameters of 00_scope.md R9, with the two OPEN ones of decisions D22 and D30. Each default
is the value the spec decides; the OPEN parameters that no rule reads have identity 0, DESIGN
CHOICE (log entry 9). BusConfig, R9's last row, is an operand of CONSTRUCT. The machine holds one such record, no command writes it, and a claim over
every state therefore quantifies over every parameter, as decisions D7, D8 and D23 ask.
DESIGN CHOICE (log entry 3). -/
structure Config where
  /-- WRITE_CMD, a 6-bit constant (10_state.md R29, decision D7). -/
  writeCmd : BitVec 6 := 0b100101#6
  /-- BC_DEFAULT, red (10_state.md R27, decision D8). -/
  bcrDefault : Brightness := 127#7
  /-- BC_DEFAULT, green. -/
  bcgDefault : Brightness := 127#7
  /-- BC_DEFAULT, blue. -/
  bcbDefault : Brightness := 127#7
  /-- MAX_PIXELS; `none` is the spec's default, unbounded (43_lifecycle.md R181, decision D23). -/
  maxPixels : Option Nat := none
  /-- ROUND_MODE with its conversion (41_channel.md R131 and R141, decision D10). -/
  conversion : PercentConversion := .exactHalfEven
  /-- WIRE_BIT_ORDER (30_encoding.md R89, decision D21). -/
  wireBitOrder : WireBitOrder := .msbFirst
  /-- BUS_MODE (00_scope.md R9, decision D21). -/
  busMode : BusMode := ⟨0, 0, 0⟩
  /-- CHAIN_ORDER, which physical chip receives which chip region (decision D22). -/
  chainOrder : OpenParameter := ⟨0⟩
  /-- SLOT_COLOUR_MAP, which LED and colour a slot drives (decision D30). -/
  slotColourMap : OpenParameter := ⟨0⟩
deriving DecidableEq, Repr

/-- The parameters at the defaults of 00_scope.md R9; the OPEN ones as log entry 9 says. -/
def Config.default : Config := {}

/-- The free answer of the `n`-th oracle question when it is `BusOpen(cfg)` and the host has
supplied no answer: no body, so nothing can be proved about it (00_scope.md R17, decision D29;
log entry 2). -/
opaque Config.freeBusOpen : Nat → BusConfig → BusOpenAnswer

/-- The free answer of the `n`-th oracle question when it is `Transmit(bytes)` on the bus of `cfg`
and the host has supplied no answer (00_scope.md R17, decision D29; log entry 2). -/
opaque Config.freeTransmit : Nat → BusConfig → List Byte → TransmitAnswer

end Sys2Proof
end

