-- ==== Sys2Proof/Syntax.lean ====
section
/-! DEFINITION. The eleven commands of 30_encoding.md R93, one constructor each, and the command
records `(tag, operands)` of R90 that a host presents. -/

namespace Sys2Proof

/-- The commands, one constructor per row of the tag table (30_encoding.md R93). Operands are
typed values, taken whole (R91, R94). -/
inductive Instr where
  /-- CONSTRUCT, tag 0x01. -/
  | construct (pixelCount : Int) (bus : BusConfig)
  /-- SET_FIELD, tag 0x02. -/
  | setField (byteOffset bitOffset width value : Int)
  /-- GET_FIELD, tag 0x03. -/
  | getField (byteOffset bitOffset width : Int)
  /-- SET_CHANNEL, tag 0x04. -/
  | setChannel (index : Int) (percent : Rat)
  /-- GET_CHANNEL, tag 0x05. -/
  | getChannel (index : Int)
  /-- SET_ALL, tag 0x06. -/
  | setAll (percent : Rat)
  /-- SET_ALL_OFF, tag 0x07. -/
  | setAllOff
  /-- SET_BRIGHTNESS, tag 0x08. -/
  | setBrightness (r g b : Int)
  /-- SET_FUNCTION_CONTROL, tag 0x09. -/
  | setFunctionControl (outtmg extgck tmgrst dsprpt blank : Bool)
  /-- SHOW, tag 0x0A. -/
  | showFrame
  /-- DEINIT, tag 0x0B. -/
  | deinit
deriving DecidableEq, Repr

/-- One operand as the host presents it, before its type is checked (30_encoding.md R91). A number
stands for its exact rational value, so an integer is a number with denominator 1 and a Bool is
the number 0 or 1. -/
inductive Operand where
  /-- An exact finite number. -/
  | number (value : Rat)
  /-- A bus configuration. -/
  | bus (cfg : BusConfig)
  /-- A non-finite numeric term (NaN or an infinity). -/
  | nonFinite
  /-- A term that is neither a number nor a bus configuration. -/
  | nonNumeric
deriving DecidableEq, Repr

/-- A command record as it stands on the command port (30_encoding.md R90). -/
structure Record where
  tag : Tag
  operands : List Operand
deriving DecidableEq, Repr

/-- The operand types of 30_encoding.md R91. -/
inductive OperandType where
  | int
  | rat
  | bool
  | busConfig
deriving DecidableEq, Repr

end Sys2Proof
end

