-- ==== Sys2Proof/WellFormed.lean ====
section
/-! DEFINITION. When a record is a command: its tag is one of the table's and its operands have
the number and the types the tag requires (30_encoding.md R91 to R93). Every term of `Instr` is a
command, because its operands are typed; the checks are on records. -/

namespace Sys2Proof

/-- The tags that select a command (30_encoding.md R93 and R95). -/
abbrev Tag.legal (tag : Tag) : Prop := 0x01#8 ≤ tag ∧ tag ≤ 0x0B#8

/-- The operand types a tag requires, in order (30_encoding.md R93). -/
def Tag.operandTypes (tag : Tag) : List OperandType :=
  match tag.toNat with
  | 0x01 => [.int, .busConfig]
  | 0x02 => [.int, .int, .int, .int]
  | 0x03 => [.int, .int, .int]
  | 0x04 => [.int, .rat]
  | 0x05 => [.int]
  | 0x06 => [.rat]
  | 0x08 => [.int, .int, .int]
  | 0x09 => [.bool, .bool, .bool, .bool, .bool]
  | _ => []

/-- Whether an operand has a type (30_encoding.md R91): an Int is a whole number, a Rat any finite
number, a Bool the number 0 or 1. -/
def Operand.hasType : OperandType → Operand → Bool
  | .int, .number q => q.den == 1
  | .rat, .number _ => true
  | .bool, .number q => q == 0 || q == 1
  | .busConfig, .bus _ => true
  | _, _ => false

/-- Whether a list of operands matches a list of types, one for one. -/
def operandsFit : List OperandType → List Operand → Bool
  | [], [] => true
  | t :: ts, x :: xs => x.hasType t && operandsFit ts xs
  | _, _ => false

/-- A record that is a command. -/
abbrev Record.wellFormed (r : Record) : Prop :=
  r.tag.legal ∧ operandsFit r.tag.operandTypes r.operands = true

end Sys2Proof
end

