-- ==== Sys2Proof/Decode.lean ====
section
/-! DEFINITION. The decoder of command records, total and rejecting by name, and the encoder
(30_encoding.md R90 to R95). The operands are typed values and not packed into bits (R90), so the
tag is the one word of an encoding and the operands follow it as a tuple. -/

namespace Sys2Proof

/-- Why a record is not decoded to a command. -/
inductive DecodeError where
  /-- The tag selects no command (30_encoding.md R95). -/
  | illegalTag (tag : Tag)
  /-- The record holds another number of operands than its tag requires (R91). -/
  | operandCount (tag : Tag) (found : Nat)
  /-- An operand does not have the type its tag requires (R91). -/
  | operandType (tag : Tag)
deriving DecidableEq, Repr

/-- The operand as an Int: a whole number (30_encoding.md R91). -/
def Operand.int? : Operand → Option Int
  | .number q => if q.den = 1 then some q.num else none
  | _ => none

/-- The operand as a Rat: any exact finite number (R91). -/
def Operand.rat? : Operand → Option Rat
  | .number q => some q
  | _ => none

/-- The operand as a Bool: the number 0 or 1 (R91). -/
def Operand.bool? : Operand → Option Bool
  | .number q => if q = 0 then some false else if q = 1 then some true else none
  | _ => none

/-- The operand as a BusConfig (R91). -/
def Operand.bus? : Operand → Option BusConfig
  | .bus c => some c
  | _ => none

/-- The command of a legal tag with the given operands, each taken whole in the order of
30_encoding.md R93 (R94). -/
def decodeOperands (tag : Tag) (xs : List Operand) : Option Instr :=
  match tag.toNat, xs with
  | 0x01, [p, c] => do return .construct (← p.int?) (← c.bus?)
  | 0x02, [o, b, w, v] => do return .setField (← o.int?) (← b.int?) (← w.int?) (← v.int?)
  | 0x03, [o, b, w] => do return .getField (← o.int?) (← b.int?) (← w.int?)
  | 0x04, [i, p] => do return .setChannel (← i.int?) (← p.rat?)
  | 0x05, [i] => do return .getChannel (← i.int?)
  | 0x06, [p] => do return .setAll (← p.rat?)
  | 0x07, [] => some .setAllOff
  | 0x08, [r, g, b] => do return .setBrightness (← r.int?) (← g.int?) (← b.int?)
  | 0x09, [ot, eg, tr, dr, bl] => do
    return .setFunctionControl (← ot.bool?) (← eg.bool?) (← tr.bool?) (← dr.bool?) (← bl.bool?)
  | 0x0A, [] => some .showFrame
  | 0x0B, [] => some .deinit
  | _, _ => none

/-- The decoder: the whole 8-bit tag selects the command (30_encoding.md R92); an illegal tag is
named (R95) and a record whose operands do not fit is not a command (R91). -/
def decode (r : Record) : Except DecodeError Instr :=
  if r.tag.legal then
    match decodeOperands r.tag r.operands with
    | some i => .ok i
    | none =>
      if r.operands.length = r.tag.operandTypes.length then .error (.operandType r.tag)
      else .error (.operandCount r.tag r.operands.length)
  else .error (.illegalTag r.tag)

/-- The tag of a command (30_encoding.md R93). -/
def Instr.tag : Instr → Tag
  | .construct .. => 0x01#8
  | .setField .. => 0x02#8
  | .getField .. => 0x03#8
  | .setChannel .. => 0x04#8
  | .getChannel .. => 0x05#8
  | .setAll .. => 0x06#8
  | .setAllOff => 0x07#8
  | .setBrightness .. => 0x08#8
  | .setFunctionControl .. => 0x09#8
  | .showFrame => 0x0A#8
  | .deinit => 0x0B#8

/-- An Int operand as the record holds it. -/
def Operand.ofInt (v : Int) : Operand := .number v

/-- A Bool operand as the record holds it, the number 0 or 1 (30_encoding.md R91). -/
def Operand.ofBool (v : Bool) : Operand := .number (if v then 1 else 0)

/-- The operand tuple of a command, in the order of 30_encoding.md R93. -/
def Instr.operands : Instr → List Operand
  | .construct p c => [.ofInt p, .bus c]
  | .setField o b w v => [.ofInt o, .ofInt b, .ofInt w, .ofInt v]
  | .getField o b w => [.ofInt o, .ofInt b, .ofInt w]
  | .setChannel i p => [.ofInt i, .number p]
  | .getChannel i => [.ofInt i]
  | .setAll p => [.number p]
  | .setAllOff => []
  | .setBrightness r g b => [.ofInt r, .ofInt g, .ofInt b]
  | .setFunctionControl ot eg tr dr bl =>
    [.ofBool ot, .ofBool eg, .ofBool tr, .ofBool dr, .ofBool bl]
  | .showFrame => []
  | .deinit => []

/-- The encoder: a command's record (30_encoding.md R90 and R93). -/
def encode (i : Instr) : Record := ⟨i.tag, i.operands⟩

/-- The operand every bit of which is zero, of a given type. -/
def OperandType.zeroOperand : OperandType → Operand
  | .int => .number 0
  | .rat => .number 0
  | .bool => .number 0
  | .busConfig => .bus ⟨0⟩

/-- The record of an opcode-table word: the tag in bits 7:0 and, since the table gives the operands
no bits, every operand zero. A word with a bit above the tag is no record of the table; it is
presented as a record that fits no tag. -/
def recordOfTableWord (nbits w : Nat) : Record :=
  let bits := w % 2 ^ nbits
  let tag : Tag := BitVec.ofNat 8 bits
  if bits < 256 then ⟨tag, tag.operandTypes.map OperandType.zeroOperand⟩
  else ⟨tag, [.nonNumeric]⟩

/-- The instruction the decoder reads from an opcode-table word. -/
def decodeTableWord (nbits w : Nat) : Option Instr :=
  match decode (recordOfTableWord nbits w) with
  | .ok i => some i
  | .error _ => none

end Sys2Proof
end

