-- ==== Sys2Proof/Machine/State.lean ====
section
/-! DEFINITION. The state of the block (10_state.md), its ports, the reasons a step can stop, and
the state at power-on. -/

namespace Sys2Proof.Machine

/-- The frame buffer's contents: (offset, byte) pairs, offsets strictly rising, none holding the
byte an unlisted offset reads as (`Memory.wf`, Machine/Memory.lean). -/
abbrev Memory := List Host.Cell

/-- The reasons of `fault` (60_exceptions.md R206). -/
inductive StopFault where
  /-- A command other than CONSTRUCT while life is Unconfigured. -/
  | notConfigured
  /-- A command other than CONSTRUCT while life is Released. -/
  | useAfterRelease
  /-- CONSTRUCT while life is Ready. -/
  | alreadyConfigured
deriving DecidableEq, Repr

/-- The reasons of `refuse` (60_exceptions.md R207), with the value the result port carries for
each (R208). -/
inductive StopRefusal where
  /-- A tag outside 0x01 .. 0x0B. -/
  | illegalCommand (tag : Tag)
  /-- CONSTRUCT with a pixel count above MAX_PIXELS. -/
  | capacityExceeded (pixelCount : Int)
deriving DecidableEq, Repr

/-- The content of the sticky stop when it is not None (10_state.md R32). -/
inductive Stop where
  | fault (reason : StopFault)
  | refused (reason : StopRefusal)
deriving DecidableEq, Repr

/-- The rejected-call kinds with their sub-causes (60_exceptions.md R203 to R205). -/
inductive CallError where
  | badPixelCount
  | busOpenFailed
  | channelIndex
  | pwmValue
  | fieldGeometry
  | transportFault
deriving DecidableEq, Repr

/-- What a command returns on the result port (30_encoding.md R99, 60_exceptions.md R200). -/
inductive Result where
  | ok
  | value (n : Int)
  | err (e : CallError)
  | stopped (stop : Stop)
deriving DecidableEq, Repr

/-- The lifecycle state (10_state.md R31). -/
inductive Life where
  | unconfigured
  | ready
  | released
deriving DecidableEq, Repr

/-- The bus handle (10_state.md R30). -/
inductive Bus where
  | closed
  | opened (cfg : BusConfig)
deriving DecidableEq, Repr

/-- One entry of the transmit log (10_state.md R33). -/
structure Transmission where
  bytes : List Byte
  outcome : TransmitAnswer
deriving DecidableEq, Repr

/-- The state elements of the block, exactly those of 10_state.md R20. -/
structure Block where
  /-- P, the pixel count (R24). -/
  pixels : Nat
  /-- C, the chip count (R24). -/
  chips : Nat
  /-- N, the channel count (R24). -/
  channels : Nat
  /-- L, the frame length in bytes (R24). -/
  frameLen : Nat
  /-- The lookup table, indexed by physical channel index (R25). -/
  lut : List Nat
  /-- The frame buffer, offsets 0 .. L-1 (R26). -/
  buf : Memory
  /-- Global brightness, red (R27). -/
  bcr : Brightness
  /-- Global brightness, green (R27). -/
  bcg : Brightness
  /-- Global brightness, blue (R27). -/
  bcb : Brightness
  /-- Output-timing mode (R28). -/
  outtmg : Bool
  /-- External clock enable (R28). -/
  extgck : Bool
  /-- Timing-reset enable (R28). -/
  tmgrst : Bool
  /-- Display-repeat enable (R28). -/
  dsprpt : Bool
  /-- Blank, output disable (R28). -/
  blank : Bool
  /-- The bus handle (R30). -/
  bus : Bus
  /-- The lifecycle state (R31). -/
  life : Life
  /-- The sticky stop; `none` is the spec's own None (R32). -/
  halt : Option Stop
  /-- The transmissions attempted, oldest first (R33). -/
  txlog : List Transmission
deriving DecidableEq, Repr

/-- The block's ports, the MODEL's own fields (log entries 1 and 2): the commands the host has
presented and the block has not run, the results it has returned, and the oracles' answers. -/
structure Port where
  /-- Command records presented and not yet run, in the host's order (00_scope.md R18). -/
  pending : List Record
  /-- Results returned, one per command, oldest first (60_exceptions.md R200). -/
  results : List Result
  /-- The transport's answers to the next `BusOpen` questions, first to be used first. -/
  busOpenScript : List BusOpenAnswer
  /-- The transport's answers to the next `Transmit` questions, first to be used first. -/
  transmitScript : List TransmitAnswer
  /-- How many oracle questions have been asked; a question with no scripted answer is answered by
  the free function of Config at this number. -/
  asks : Nat
deriving DecidableEq, Repr

/-- The machine: the block, the parameters it was built with, and its ports. -/
structure State where
  block : Block
  config : Config
  port : Port
deriving DecidableEq, Repr

/-- Why a step stops without a next state although a command runs. The spec's own faults are not
here: they set `halt` and return a result, which is a next state (00_scope.md R16). -/
inductive Fault where
  /-- An access to an offset outside the frame buffer, which does not exist (00_scope.md R14,
  20_memory.md R50). Raised by the frame-buffer primitives. SAFE: no state that meets
  `Block.Inv` reaches it. -/
  | offsetOutsideBuffer
  /-- A lookup past the end of the table (10_state.md R25). Raised by the channel commands.
  SAFE: no state that meets `Block.Inv` reaches it. -/
  | lookupOutsideTable
  /-- A transmission while the bus handle is Closed, to which the spec gives no meaning
  (43_lifecycle.md R186). Raised by SHOW and SET_BRIGHTNESS. SAFE: no state that meets
  `Block.Inv` reaches it. -/
  | busNotOpen
deriving DecidableEq, Repr

/-- Why a step is refused. The spec's own refusals are not here: they set `halt` and return a
result, which is a next state (00_scope.md R16). -/
inductive Refusal where
  /-- An instruction without a meaning yet. Raised by `exec` alone. SAFE. -/
  | notModelled (mnemonic : String)
  /-- The record on the command port is not a command: its operands do not fit its tag, and the
  decoder refuses it before it reaches the block (30_encoding.md R91). Raised by `step`. SAFE. -/
  | notACommand (why : DecodeError)
deriving DecidableEq, Repr

/-- The outcome of a command or a step. -/
abbrev Outcome := Host.Outcome State Fault Refusal

/-- The block at power-on (70_reset_and_hazards.md R230): Unconfigured, no stop, bus closed, an
empty log. The spec gives the geometry, table, buffer and registers no value here, because they do
not exist; the model holds zero or nothing in them, DESIGN CHOICE (log entry 4). -/
def Block.powerOn : Block where
  pixels := 0
  chips := 0
  channels := 0
  frameLen := 0
  lut := []
  buf := []
  bcr := 0#7
  bcg := 0#7
  bcb := 0#7
  outtmg := false
  extgck := false
  tmgrst := false
  dsprpt := false
  blank := false
  bus := .closed
  life := .unconfigured
  halt := none
  txlog := []

/-- The ports before the host has presented anything (log entries 1 and 2). -/
def Port.powerOn : Port where
  pending := []
  results := []
  busOpenScript := []
  transmitScript := []
  asks := 0

/-- The machine right after power-on (70_reset_and_hazards.md R230), with the default parameters of
00_scope.md R9. -/
def State.reset : State where
  block := Block.powerOn
  config := Config.default
  port := Port.powerOn

end Sys2Proof.Machine
end

