-- ==== Sys2Proof/Machine/Memory.lean ====
section
/-! DEFINITION. The frame buffer as a canonical list of cells, its big-endian 16-bit and 32-bit
accesses, and the primitives MemRead and MemWrite with their bound (00_scope.md R14, 20_memory.md
R50 to R54). -/

namespace Sys2Proof.Machine

/-- What an unlisted offset of the buffer reads as: CONSTRUCT makes the buffer L bytes of 0x00
(43_lifecycle.md R180, 10_state.md R26). -/
def Memory.unlisted : Byte := 0x00#8

/-- The byte at an offset. -/
def Memory.read : Memory → Nat → Byte
  | [], _ => Memory.unlisted
  | (a', v) :: rest, a => if a = a' then v else Memory.read rest a

/-- Store a byte, keeping the canonical form: the offsets rise, and writing the byte an unlisted
offset reads as removes the entry. -/
def Memory.write : Memory → Nat → Byte → Memory
  | [], a, v => if v = Memory.unlisted then [] else [(a, v)]
  | (a', v') :: rest, a, v =>
    if a < a' then (if v = Memory.unlisted then (a', v') :: rest else (a, v) :: (a', v') :: rest)
    else if a = a' then (if v = Memory.unlisted then rest else (a, v) :: rest)
    else (a', v') :: Memory.write rest a v

/-- The canonical form: offsets strictly rising, no entry equal to what an unlisted offset reads
as. -/
abbrev Memory.wf (m : Memory) : Prop :=
  m.Pairwise (fun c d => c.1 < d.1) ∧ ∀ c ∈ m, c.2 ≠ Memory.unlisted

/-- The 16-bit big-endian value at an offset: `buf[o] ++ buf[o+1]` (00_scope.md R14, n = 2). -/
def Memory.read16 (m : Memory) (o : Nat) : Slot := m.read o ++ m.read (o + 1)

/-- The 32-bit big-endian value at an offset: the four bytes concatenated, the first most
significant (00_scope.md R14, n = 4). -/
def Memory.read32 (m : Memory) (o : Nat) : Word :=
  m.read o ++ m.read (o + 1) ++ m.read (o + 2) ++ m.read (o + 3)

/-- Store a 16-bit value big-endian (00_scope.md R14, n = 2). -/
def Memory.write16 (m : Memory) (o : Nat) (v : Slot) : Memory :=
  (m.write o (v.extractLsb' 8 8)).write (o + 1) (v.extractLsb' 0 8)

/-- Store a 32-bit value big-endian (00_scope.md R14, n = 4). -/
def Memory.write32 (m : Memory) (o : Nat) (v : Word) : Memory :=
  (((m.write o (v.extractLsb' 24 8)).write (o + 1) (v.extractLsb' 16 8)).write (o + 2)
    (v.extractLsb' 8 8)).write (o + 3) (v.extractLsb' 0 8)

/-- The first `n` bytes of the buffer in ascending offset order. -/
def Memory.bytes (m : Memory) (n : Nat) : List Byte := (List.range n).map m.read

/-- The block with another buffer content. -/
def Block.withBuf (m : Memory) (b : Block) : Block := { b with buf := m }

/-- MemRead(o, 2), defined only for o + 2 ≤ L (00_scope.md R14). -/
def Block.memRead2 (b : Block) (o : Nat) : Except Fault Slot :=
  if o + 2 ≤ b.frameLen then .ok (b.buf.read16 o) else .error .offsetOutsideBuffer

/-- MemRead(o, 4), defined only for o + 4 ≤ L (00_scope.md R14). -/
def Block.memRead4 (b : Block) (o : Nat) : Except Fault Word :=
  if o + 4 ≤ b.frameLen then .ok (b.buf.read32 o) else .error .offsetOutsideBuffer

/-- MemWrite(o, 2, v), defined only for o + 2 ≤ L (00_scope.md R14). -/
def Block.memWrite2 (o : Nat) (v : Slot) (b : Block) : Except Fault Block :=
  if o + 2 ≤ b.frameLen then .ok (b.withBuf (b.buf.write16 o v)) else .error .offsetOutsideBuffer

/-- MemWrite(o, 4, v), defined only for o + 4 ≤ L (00_scope.md R14). -/
def Block.memWrite4 (o : Nat) (v : Word) (b : Block) : Except Fault Block :=
  if o + 4 ≤ b.frameLen then .ok (b.withBuf (b.buf.write32 o v)) else .error .offsetOutsideBuffer

/-- The frame: the buffer's L bytes, `buf[0]` first (30_encoding.md R88, 43_lifecycle.md R186). -/
def Block.frame (b : Block) : List Byte := b.buf.bytes b.frameLen

end Sys2Proof.Machine
end

