-- ==== Sys2Proof/Machine/Layout.lean ====
section
/-! DEFINITION. The Frame Layout (20_memory.md R55 to R60): where chips, header fields and channel
slots lie in the buffer. It has no mutable state; it is a set of formulas. -/

namespace Sys2Proof.Machine

/-- C from the pixel count: four pixels a chip (00_scope.md R10). -/
def chipCount (pixels : Nat) : Nat := pixels / 4

/-- N from the pixel count: three channels a pixel (00_scope.md R10). -/
def channelCount (pixels : Nat) : Nat := 3 * pixels

/-- L from the pixel count: 28 bytes a chip (00_scope.md R10). -/
def frameLength (pixels : Nat) : Nat := 28 * chipCount pixels

/-- The offset of chip `c`'s header word (20_memory.md R56). -/
def headerOffset (c : Nat) : Nat := 28 * c

/-- `Offset(j)`, the byte offset of the slot of physical channel `j` (20_memory.md R58). -/
def channelOffset (j : Nat) : Nat := 28 * (j / 12) + 4 + 2 * (j % 12)

/-- The lookup table of `n` channels (10_state.md R25). -/
def lookupTable (n : Nat) : List Nat := (List.range n).map channelOffset

/-- `Rev(i) = N - 1 - i`, from logical to physical channel index (41_channel.md R130). -/
def reverseIndex (n : Nat) (i : Int) : Int := n - 1 - i

/-- `lut[Rev(i)]`, the offset a channel command on logical channel `i` accesses
(41_channel.md R130). -/
def Block.channelSlot (b : Block) (i : Int) : Except Fault Nat :=
  match b.lut[(reverseIndex b.channels i).toNat]? with
  | some o => .ok o
  | none => .error .lookupOutsideTable

/-- The header fields the driver's commands write (40_bitfield.md R117). -/
inductive HeaderField where
  | wc
  | outtmg
  | extgck
  | tmgrst
  | dsprpt
  | blank
  | bcr
  | bcg
  | bcb
deriving DecidableEq, Repr

/-- The bit offset of a header field (40_bitfield.md R117, 30_encoding.md R80 to R83; the flag
positions are the spec's decision D9). -/
def headerBitOffset : HeaderField → Nat
  | .wc => 26
  | .outtmg => 25
  | .extgck => 24
  | .tmgrst => 23
  | .dsprpt => 22
  | .blank => 21
  | .bcr => 14
  | .bcg => 7
  | .bcb => 0

/-- The width of a header field (40_bitfield.md R117). -/
def headerWidth : HeaderField → Nat
  | .wc => 6
  | .outtmg | .extgck | .tmgrst | .dsprpt | .blank => 1
  | .bcr | .bcg | .bcb => 7

end Sys2Proof.Machine
end

