-- ==== Sys2Proof/Machine/Operands.lean ====
section
/-! DEFINITION. The narrowings and conversions of operands: masking to a field width, the geometry
check of the codec, and percent to PWM and back (00_scope.md R12 and R13, 40_bitfield.md R111,
41_channel.md R131, R132 and R141). -/

namespace Sys2Proof.Machine

/-- `trunc_w(v) = v mod 2^w`, the non-negative remainder (00_scope.md R12, 40_bitfield.md R116). -/
def truncBits (w : Nat) (v : Int) : Nat := (v % (2 ^ w : Int)).toNat

/-- A brightness operand masked to 7 bits (42_config.md R162). -/
def truncBrightness (v : Int) : Brightness := BitVec.ofNat 7 (truncBits 7 v)

/-- `FieldOK(o, b, w)` for a buffer of `len` bytes (40_bitfield.md R111). -/
abbrev fieldOK (len : Nat) (o b w : Int) : Prop :=
  0 ≤ o ∧ o + 4 ≤ len ∧ 0 ≤ b ∧ 0 ≤ w ∧ b + w ≤ 32

/-- `0 ≤ i < N` (60_exceptions.md R204). -/
abbrev channelOK (n : Nat) (i : Int) : Prop := 0 ≤ i ∧ i < n

/-- `0 ≤ v ≤ 65535` (41_channel.md R131). -/
abbrev pwmOK (v : Int) : Prop := 0 ≤ v ∧ v ≤ 65535

/-- Ones at bits b .. b+w-1 (40_bitfield.md R113). -/
def fieldMask (b w : Nat) : Word := BitVec.ofNat 32 ((2 ^ w - 1) * 2 ^ b)

/-- The codec's new word: the field's bits cleared, the masked value put there
(40_bitfield.md R113). -/
def insertField (word : Word) (b w : Nat) (v : Int) : Word :=
  (word &&& ~~~fieldMask b w) ||| BitVec.ofNat 32 (truncBits w v * 2 ^ b)

/-- The codec's field: `(word div 2^b) mod 2^w` (40_bitfield.md R114). -/
def extractField (word : Word) (b w : Nat) : Nat := word.toNat / 2 ^ b % 2 ^ w

/-- `RoundHE(q)`: the nearest integer, an exact half going to the even one (00_scope.md R13). -/
def roundHE (q : Rat) : Int :=
  let below := q.num / (q.den : Int)
  let twice := 2 * (q.num % (q.den : Int))
  if twice < q.den then below
  else if (q.den : Int) < twice then below + 1
  else if below % 2 = 0 then below
  else below + 1

/-- `q × 2^e` for a signed exponent. -/
def scalePow2 (q : Rat) (e : Int) : Rat :=
  if 0 ≤ e then q * (2 ^ e.toNat : Nat) else q / (2 ^ (-e).toNat : Nat)

/-- The binary64 number nearest to `q`, an exact half going to the even significand. Exponents
above the format's largest are not cut to an infinity (log entry 6). -/
def roundBinary64 (q : Rat) : Rat :=
  if q = 0 then 0
  else
    let guess : Int := (q.num.natAbs.log2 : Int) - (q.den.log2 : Int)
    let top := if scalePow2 1 guess ≤ q.abs then guess else guess - 1
    let e := max (top - 52) (-1074)
    scalePow2 (roundHE (scalePow2 q (-e))) e

/-- `PctToPwm(p)` (41_channel.md R131), or its named alternative `PctToPwm_ieee` in binary64
arithmetic (R141). -/
def pctToPwm : PercentConversion → Rat → Int
  | .exactHalfEven, p => roundHE (p * 65535 / 100)
  | .binary64, p => roundHE (roundBinary64 (roundBinary64 p * roundBinary64 (65535 / 100)))

/-- `PwmToPct(v)` (41_channel.md R132); R141 gives both conversions the same result here. -/
def pwmToPct (v : Slot) : Int := roundHE ((v.toNat : Rat) * 100 / 65535)

end Sys2Proof.Machine
end

