-- ==== Sys2Proof/Machine/Flags.lean ====
section
/-! DEFINITION. The function-control flags and the header word they are packed in (30_encoding.md
R80 to R85). The block has no condition codes (10_state.md R23), so no command computes one. -/

namespace Sys2Proof.Machine

/-- The FC field: the five flags, OUTTMG most significant (30_encoding.md R82). -/
def fcField (outtmg extgck tmgrst dsprpt blank : Bool) : BitVec 5 :=
  BitVec.ofBool outtmg ++ BitVec.ofBool extgck ++ BitVec.ofBool tmgrst ++ BitVec.ofBool dsprpt
    ++ BitVec.ofBool blank

/-- The BC field: the three brightness values, red most significant (30_encoding.md R83). -/
def bcField (bcr bcg bcb : Brightness) : BitVec 21 := bcr ++ bcg ++ bcb

/-- The header word (30_encoding.md R84). -/
def headerWord (wc : BitVec 6) (fc : BitVec 5) (bc : BitVec 21) : Word := wc ++ fc ++ bc

/-- A flag as the one-bit value the codec stores. -/
def flagValue (flag : Bool) : Int := if flag then 1 else 0

/-- The five FC registers written at once (42_config.md R164). -/
def Block.withFunctionControl (outtmg extgck tmgrst dsprpt blank : Bool) (b : Block) : Block :=
  { b with outtmg := outtmg, extgck := extgck, tmgrst := tmgrst, dsprpt := dsprpt, blank := blank }

/-- The three BC registers written at once (42_config.md R162). -/
def Block.withBrightness (bcr bcg bcb : Brightness) (b : Block) : Block :=
  { b with bcr := bcr, bcg := bcg, bcb := bcb }

/-- The header word the registers and WRITE_CMD stand for (10_state.md R35). -/
def Block.registerHeader (writeCmd : BitVec 6) (b : Block) : Word :=
  headerWord writeCmd (fcField b.outtmg b.extgck b.tmgrst b.dsprpt b.blank)
    (bcField b.bcr b.bcg b.bcb)

end Sys2Proof.Machine
end

