-- ==== Sys2Proof/Machine/Ops.lean ====
section
/-! DEFINITION. The operations the commands share: the result port, rejected calls and sticky stops
(00_scope.md R16, 60_exceptions.md R200 to R210), the oracles (R217 and R218), the codec on the
buffer, and the header rewrite helpers. -/

namespace Sys2Proof.Machine

/-- The machine with another block. -/
def State.withBlock (b : Block) (s : State) : State := { s with block := b }

/-- The machine with other ports. -/
def State.withPort (p : Port) (s : State) : State := { s with port := p }

/-- The machine with other commands waiting on the command port. -/
def State.withPending (rs : List Record) (s : State) : State :=
  { s with port := { s.port with pending := rs } }

/-- `result <- r`: one result on the result port (00_scope.md R15, 30_encoding.md R99). -/
def State.reply (r : Result) (s : State) : State :=
  { s with port := { s.port with results := s.port.results ++ [r] } }

/-- The block with its sticky stop set (10_state.md R32). -/
def Block.withHalt (stop : Stop) (b : Block) : Block := { b with halt := some stop }

/-- The block with one more entry at the end of its transmit log (10_state.md R33). -/
def Block.logTransmission (t : Transmission) (b : Block) : Block :=
  { b with txlog := b.txlog ++ [t] }

/-- `raise E(sub)`: the call is rejected and no state element changes (00_scope.md R16). -/
def raise (e : CallError) (s : State) : Outcome := .next (s.reply (.err e))

/-- Taking a stop: `fault F` and `refuse R` set the sticky stop and return it (00_scope.md R16).
Nothing is saved and no control is transferred (60_exceptions.md R213), and there is no return
from it (R214). -/
def takeStop (stop : Stop) (s : State) : Outcome :=
  .next ((s.withBlock (s.block.withHalt stop)).reply (.stopped stop))

/-- Step 1 of 60_exceptions.md R210: a stopped block answers every command with its stop and
changes nothing (R209). -/
def unlessStopped (s : State) (k : Outcome) : Outcome :=
  match s.block.halt with
  | some stop => .next (s.reply (.stopped stop))
  | none => k

/-- `CommonChecks()`: steps 1, 4 and 5 of 60_exceptions.md R210, around the rest of a command other
than CONSTRUCT. Step 2, the tag, is `refuseTag`'s. -/
def commonChecks (s : State) (k : Outcome) : Outcome :=
  unlessStopped s <|
    match s.block.life with
    | .unconfigured => takeStop (.fault .notConfigured) s
    | .released => takeStop (.fault .useAfterRelease) s
    | .ready => k

/-- A command whose tag selects nothing (30_encoding.md R95, 60_exceptions.md R210 step 2). -/
def refuseTag (tag : Tag) (s : State) : Outcome :=
  unlessStopped s (takeStop (.refused (.illegalCommand tag)) s)

/-- The end of a command that wrote the block and returns `r`. -/
def commit (b : Except Fault Block) (r : Result) (s : State) : Outcome :=
  match b with
  | .ok b' => .next ((s.withBlock b').reply r)
  | .error f => .fault f

/-- The end of a command that read a value and returns it. -/
def commitValue (v : Except Fault Int) (s : State) : Outcome :=
  match v with
  | .ok n => .next (s.reply (.value n))
  | .error f => .fault f

/-- Ask `BusOpen(cfg)` once (60_exceptions.md R218): the answer and the port after it. -/
def Port.askBusOpen (cfg : BusConfig) (p : Port) : BusOpenAnswer × Port :=
  match p.busOpenScript with
  | a :: rest => (a, { p with busOpenScript := rest, asks := p.asks + 1 })
  | [] => (Config.freeBusOpen p.asks cfg, { p with asks := p.asks + 1 })

/-- Ask `Transmit(bytes)` once on the bus of `cfg` (60_exceptions.md R217): the answer and the port
after it. -/
def Port.askTransmit (cfg : BusConfig) (bytes : List Byte) (p : Port) : TransmitAnswer × Port :=
  match p.transmitScript with
  | a :: rest => (a, { p with transmitScript := rest, asks := p.asks + 1 })
  | [] => (Config.freeTransmit p.asks cfg bytes, { p with asks := p.asks + 1 })

/-- `SetFieldRaw(o, b, w, v)` (40_bitfield.md R113). -/
def setFieldRaw (o b w : Nat) (v : Int) (blk : Block) : Except Fault Block := do
  let word ← blk.memRead4 o
  blk.memWrite4 o (insertField word b w v)

/-- `GetFieldRaw(o, b, w)` (40_bitfield.md R114). -/
def getFieldRaw (o b w : Nat) (blk : Block) : Except Fault Int := do
  let word ← blk.memRead4 o
  return extractField word b w

/-- The codec at a named field of chip `c`'s header (40_bitfield.md R117). -/
def setHeaderField (c : Nat) (f : HeaderField) (v : Int) (blk : Block) : Except Fault Block :=
  setFieldRaw (headerOffset c) (headerBitOffset f) (headerWidth f) v blk

/-- `WriteBC(c)` from the brightness registers (42_config.md R160). -/
def writeBC (c : Nat) (blk : Block) : Except Fault Block := do
  let b1 ← setHeaderField c .bcr blk.bcr.toNat blk
  let b2 ← setHeaderField c .bcg blk.bcg.toNat b1
  setHeaderField c .bcb blk.bcb.toNat b2

/-- `WriteFC(c)` from the function-control registers (42_config.md R161). -/
def writeFC (c : Nat) (blk : Block) : Except Fault Block := do
  let b1 ← setHeaderField c .outtmg (flagValue blk.outtmg) blk
  let b2 ← setHeaderField c .extgck (flagValue blk.extgck) b1
  let b3 ← setHeaderField c .tmgrst (flagValue blk.tmgrst) b2
  let b4 ← setHeaderField c .dsprpt (flagValue blk.dsprpt) b3
  setHeaderField c .blank (flagValue blk.blank) b4

/-- `InitHeader(c)` (43_lifecycle.md R183). -/
def initHeader (writeCmd : BitVec 6) (c : Nat) (blk : Block) : Except Fault Block := do
  let b1 ← setHeaderField c .wc writeCmd.toNat blk
  let b2 ← writeFC c b1
  writeBC c b2

/-- `for c = 0 .. C-1: f(c)`. -/
def forEachChip (f : Nat → Block → Except Fault Block) (blk : Block) : Except Fault Block :=
  (List.range blk.chips).foldlM (fun b c => f c b) blk

/-- `MemWrite(lut[Rev(i)], 2, v)` (41_channel.md R133). -/
def writeChannel (i : Int) (v : Slot) (blk : Block) : Except Fault Block := do
  let o ← blk.channelSlot i
  blk.memWrite2 o v

/-- `MemRead(lut[Rev(i)], 2)` (41_channel.md R134). -/
def readChannel (i : Int) (blk : Block) : Except Fault Slot := do
  let o ← blk.channelSlot i
  blk.memRead2 o

/-- `for i = 0, 1, ..., N-1: MemWrite(lut[Rev(i)], 2, v)`, ascending logical index
(41_channel.md R135). -/
def writeAllChannels (v : Slot) (blk : Block) : Except Fault Block :=
  (List.range blk.channels).foldlM (fun b i => writeChannel (i : Nat) v b) blk

/-- `Emit()`: the whole buffer presented once on the open bus, the attempt logged with the
transport's answer, and that answer returned (43_lifecycle.md R186). -/
def emit (s : State) : Outcome :=
  match s.block.bus with
  | .closed => .fault .busNotOpen
  | .opened cfg =>
    let asked := s.port.askTransmit cfg s.block.frame
    let sent := (s.withPort asked.2).withBlock
      (s.block.logTransmission ⟨s.block.frame, asked.1⟩)
    match asked.1 with
    | .ok => .next (sent.reply .ok)
    | .fault => .next (sent.reply (.err .transportFault))

end Sys2Proof.Machine
end

