-- ==== Sys2Proof/Machine/BitField.lean ====
section
/-! DEFINITION. The bit-field codec's commands (40_bitfield.md). -/

namespace Sys2Proof.Machine

/-- SET_FIELD (40_bitfield.md R110). -/
def execSetField (o b w v : Int) (s : State) : Outcome :=
  commonChecks s <|
    if fieldOK s.block.frameLen o b w then
      commit (setFieldRaw o.toNat b.toNat w.toNat v s.block) .ok s
    else raise .fieldGeometry s

/-- GET_FIELD (40_bitfield.md R114). -/
def execGetField (o b w : Int) (s : State) : Outcome :=
  commonChecks s <|
    if fieldOK s.block.frameLen o b w then
      commitValue (getFieldRaw o.toNat b.toNat w.toNat s.block) s
    else raise .fieldGeometry s

end Sys2Proof.Machine
end

