-- ==== Sys2Proof/Machine/Channel.lean ====
section
/-! DEFINITION. The channel commands (41_channel.md). -/

namespace Sys2Proof.Machine

/-- SET_CHANNEL: the index check, then the value check, then one slot (41_channel.md R133). -/
def execSetChannel (i : Int) (p : Rat) (s : State) : Outcome :=
  commonChecks s <|
    if channelOK s.block.channels i then
      let v := pctToPwm s.config.conversion p
      if pwmOK v then commit (writeChannel i (BitVec.ofInt 16 v) s.block) .ok s
      else raise .pwmValue s
    else raise .channelIndex s

/-- GET_CHANNEL (41_channel.md R134). -/
def execGetChannel (i : Int) (s : State) : Outcome :=
  commonChecks s <|
    if channelOK s.block.channels i then
      commitValue ((readChannel i s.block).map pwmToPct) s
    else raise .channelIndex s

/-- SET_ALL (41_channel.md R135). -/
def execSetAll (p : Rat) (s : State) : Outcome :=
  commonChecks s <|
    let v := pctToPwm s.config.conversion p
    if pwmOK v then commit (writeAllChannels (BitVec.ofInt 16 v) s.block) .ok s
    else raise .pwmValue s

/-- SET_ALL_OFF (41_channel.md R136). -/
def execSetAllOff (s : State) : Outcome :=
  commonChecks s <| commit (writeAllChannels 0x0000#16 s.block) .ok s

end Sys2Proof.Machine
end

