-- ==== Sys2Proof/Machine/Configuration.lean ====
section
/-! DEFINITION. The configuration commands (42_config.md). SET_BRIGHTNESS transmits and
SET_FUNCTION_CONTROL does not (R165). -/

namespace Sys2Proof.Machine

/-- SET_BRIGHTNESS: the registers, every header, then the transmission, whose failure rolls nothing
back (42_config.md R162 and R163). -/
def execSetBrightness (r g b : Int) (s : State) : Outcome :=
  commonChecks s <|
    match forEachChip writeBC
      (s.block.withBrightness (truncBrightness r) (truncBrightness g) (truncBrightness b)) with
    | .ok blk => emit (s.withBlock blk)
    | .error f => .fault f

/-- SET_FUNCTION_CONTROL (42_config.md R164). -/
def execSetFunctionControl (outtmg extgck tmgrst dsprpt blank : Bool) (s : State) : Outcome :=
  commonChecks s <|
    commit (forEachChip writeFC (s.block.withFunctionControl outtmg extgck tmgrst dsprpt blank))
      .ok s

end Sys2Proof.Machine
end

