-- ==== Sys2Proof/Machine/Lifecycle.lean ====
section
/-! DEFINITION. CONSTRUCT, SHOW and DEINIT (43_lifecycle.md). -/

namespace Sys2Proof.Machine

/-- Whether a pixel count is above MAX_PIXELS, when that is bounded (43_lifecycle.md R181). -/
def aboveCapacity (maxPixels : Option Nat) (pixelCount : Int) : Bool :=
  match maxPixels with
  | some m => decide ((m : Int) < pixelCount)
  | none => false

/-- `P > 0 and P mod 4 = 0` (43_lifecycle.md R181). -/
abbrev pixelCountOK (pixelCount : Int) : Prop := 0 < pixelCount ∧ pixelCount % 4 = 0

/-- The fresh block of CONSTRUCT before its headers are written: geometry, a buffer of zero bytes,
the lookup table, the default registers, the open bus and life Ready; halt and txlog are kept
(43_lifecycle.md R180). -/
def Block.fresh (cfg : Config) (pixels : Nat) (bus : BusConfig) (old : Block) : Block where
  pixels := pixels
  chips := chipCount pixels
  channels := channelCount pixels
  frameLen := frameLength pixels
  lut := lookupTable (channelCount pixels)
  buf := []
  bcr := cfg.bcrDefault
  bcg := cfg.bcgDefault
  bcb := cfg.bcbDefault
  outtmg := true
  extgck := false
  tmgrst := true
  dsprpt := true
  blank := false
  bus := .opened bus
  life := .ready
  halt := old.halt
  txlog := old.txlog

/-- CONSTRUCT (43_lifecycle.md R180), with its own order of checks (60_exceptions.md R210). -/
def execConstruct (pixelCount : Int) (bus : BusConfig) (s : State) : Outcome :=
  unlessStopped s <|
    if s.block.life = .ready then takeStop (.fault .alreadyConfigured) s
    else if aboveCapacity s.config.maxPixels pixelCount then
      takeStop (.refused (.capacityExceeded pixelCount)) s
    else if pixelCountOK pixelCount then
      let asked := s.port.askBusOpen bus
      let s' := s.withPort asked.2
      match asked.1 with
      | .fail => raise .busOpenFailed s'
      | .ok =>
        commit (forEachChip (initHeader s.config.writeCmd)
          (Block.fresh s.config pixelCount.toNat bus s.block)) .ok s'
    else raise .badPixelCount s

/-- SHOW (43_lifecycle.md R186). -/
def execShow (s : State) : Outcome := commonChecks s (emit s)

/-- The block after DEINIT: the bus closed, life Released, everything CONSTRUCT made discarded, the
stop and the log kept (43_lifecycle.md R188). The discarded elements do not exist; the model holds
their power-on values, DESIGN CHOICE (log entry 4). -/
def Block.afterDeinit (b : Block) : Block :=
  { Block.powerOn with life := .released, halt := b.halt, txlog := b.txlog }

/-- DEINIT (43_lifecycle.md R188). -/
def execDeinit (s : State) : Outcome :=
  commonChecks s <| commit (.ok s.block.afterDeinit) .ok s

end Sys2Proof.Machine
end

