-- ==== Sys2Proof/Machine/Dispatch.lean ====
section
/-! DEFINITION. One arm per command (30_encoding.md R93). -/

namespace Sys2Proof.Machine

def exec (i : Instr) (s : State) : Host.Outcome State Fault Refusal :=
  match i with
  | .construct pixelCount bus => Sys2Proof.Machine.execConstruct pixelCount bus s
  | .setField byteOffset bitOffset width value => Sys2Proof.Machine.execSetField byteOffset bitOffset width value s
  | .getField byteOffset bitOffset width => Sys2Proof.Machine.execGetField byteOffset bitOffset width s
  | .setChannel index percent => Sys2Proof.Machine.execSetChannel index percent s
  | .getChannel index => Sys2Proof.Machine.execGetChannel index s
  | .setAll percent => Sys2Proof.Machine.execSetAll percent s
  | .setAllOff => Sys2Proof.Machine.execSetAllOff s
  | .setBrightness r g b => Sys2Proof.Machine.execSetBrightness r g b s
  | .setFunctionControl outtmg extgck tmgrst dsprpt blank => Sys2Proof.Machine.execSetFunctionControl outtmg extgck tmgrst dsprpt blank s
  | .showFrame => Sys2Proof.Machine.execShow s
  | .deinit => Sys2Proof.Machine.execDeinit s

end Sys2Proof.Machine
end

