-- ==== Sys2Proof/Machine/Port.lean ====
section
/-! DEFINITION. What happens to a record at the command port: the decoder, then the block
(30_encoding.md R90 to R95, 60_exceptions.md R210). -/

namespace Sys2Proof.Machine

/-- One record run to completion on a machine that no longer has it waiting: a command is executed,
a tag that selects nothing is refused by the block (R95), and a term that is not a command is
refused by the decoder, before the block (R91). -/
def runRecord (r : Record) (s : State) : Outcome :=
  match decode r with
  | .ok i => exec i s
  | .error (.illegalTag tag) => refuseTag tag s
  | .error (.operandCount tag n) => .refused (.notACommand (.operandCount tag n))
  | .error (.operandType tag) => .refused (.notACommand (.operandType tag))

/-- The next command in the host's order (00_scope.md R18). With none presented the block waits
(70_reset_and_hazards.md R231) and nothing changes. -/
def runNext (s : State) : Outcome :=
  match s.port.pending with
  | [] => .next s
  | r :: rest => runRecord r (s.withPending rest)

/-- The machine with one more record presented, as the next to run. -/
def State.present (r : Record) (s : State) : State := s.withPending (r :: s.port.pending)

end Sys2Proof.Machine
end

