-- ==== Sys2Proof/Machine/Step.lean ====
section
/-! DEFINITION. The step function and the placing of an opcode-table word on the command port. -/

namespace Sys2Proof.Machine

/-- One step: one command, to completion (00_scope.md R18). -/
def step (s : State) : Host.Outcome State Fault Refusal := runNext s

/-- The machine with an opcode-table word presented as its next command, every operand zero
(log entry 5). -/
def State.withFetchWord (s : State) (nbits w : Nat) : State := s.present (recordOfTableWord nbits w)

end Sys2Proof.Machine
end

