-- ==== Sys2Proof/Machine/Assembler.lean ====
section
/-! DEFINITION. The assembler syntax of commands and the decoder's listing (30_encoding.md R96 and
R97). A line is a list of characters; a bus operand `@name` is looked up in a table that gives the
OPEN BusConfig values their names. What R96 leaves open (blanks, the decimal point, signs, digits,
names) is DESIGN CHOICE, log entry 13. -/

namespace Sys2Proof.Machine

/-- The names a program gives to BusConfig values (30_encoding.md R96). -/
abbrev BusNames := List (List Char × BusConfig)

/-- The mnemonics with their tags (30_encoding.md R93). -/
def mnemonicTable : List (String × Tag) :=
  [("CONSTRUCT", 0x01), ("SET_FIELD", 0x02), ("GET_FIELD", 0x03), ("SET_CHANNEL", 0x04),
   ("GET_CHANNEL", 0x05), ("SET_ALL", 0x06), ("SET_ALL_OFF", 0x07), ("SET_BRIGHTNESS", 0x08),
   ("SET_FUNCTION_CONTROL", 0x09), ("SHOW", 0x0A), ("DEINIT", 0x0B)]

/-- The tag of a mnemonic. -/
def tagOfMnemonic (name : List Char) : Option Tag :=
  (mnemonicTable.find? fun row => row.1.toList == name).map (·.2)

/-- The mnemonic of a command. -/
def mnemonic : Instr → String
  | .construct .. => "CONSTRUCT"
  | .setField .. => "SET_FIELD"
  | .getField .. => "GET_FIELD"
  | .setChannel .. => "SET_CHANNEL"
  | .getChannel .. => "GET_CHANNEL"
  | .setAll .. => "SET_ALL"
  | .setAllOff => "SET_ALL_OFF"
  | .setBrightness .. => "SET_BRIGHTNESS"
  | .setFunctionControl .. => "SET_FUNCTION_CONTROL"
  | .showFrame => "SHOW"
  | .deinit => "DEINIT"

/-- The value of a digit in a base up to sixteen. -/
def digitValue (base : Nat) (c : Char) : Option Nat :=
  let v :=
    if '0' ≤ c ∧ c ≤ '9' then c.toNat - '0'.toNat
    else if 'a' ≤ c ∧ c ≤ 'f' then c.toNat - 'a'.toNat + 10
    else if 'A' ≤ c ∧ c ≤ 'F' then c.toNat - 'A'.toNat + 10
    else base
  if v < base then some v else none

/-- A non-empty row of digits in a base. -/
def parseNat (base : Nat) (cs : List Char) : Option Nat :=
  if cs.isEmpty then none
  else cs.foldlM (fun acc c => (digitValue base c).map (acc * base + ·)) 0

/-- An Int operand: decimal, optionally negative, or `0x` hexadecimal, or `0b` binary. A prefixed
one carries no sign, DESIGN CHOICE (log entry 13). -/
def parseInt : List Char → Option Int
  | '0' :: 'x' :: ds => (parseNat 16 ds).map Int.ofNat
  | '0' :: 'b' :: ds => (parseNat 2 ds).map Int.ofNat
  | '-' :: ds => (parseNat 10 ds).map fun (n : Nat) => -(n : Int)
  | ds => (parseNat 10 ds).map Int.ofNat

/-- The text before the first `sep` and the text after it, if there is one. -/
def splitFirst (sep : Char) (cs : List Char) : List Char × Option (List Char) :=
  (cs.takeWhile (· ≠ sep), (cs.dropWhile (· ≠ sep)).tail?)

/-- An unsigned Rat operand: a fraction, a decimal literal or a whole number. A decimal literal has
a digit on either side of its point, DESIGN CHOICE (log entry 13). -/
def parseUnsignedRat (cs : List Char) : Option Rat :=
  match splitFirst '/' cs with
  | (n, some d) => do
    let n ← parseNat 10 n
    let d ← parseNat 10 d
    if d = 0 then none else some ((n : Rat) / (d : Rat))
  | (_, none) =>
    match splitFirst '.' cs with
    | (whole, some frac) => do
      let w ← parseNat 10 whole
      let f ← parseNat 10 frac
      return (w : Rat) + (f : Rat) / ((10 ^ frac.length : Nat) : Rat)
    | (whole, none) => (parseNat 10 whole).map fun (n : Nat) => (n : Rat)

/-- A Rat operand, optionally negative, DESIGN CHOICE (log entry 13). -/
def parseRat : List Char → Option Rat
  | '-' :: cs => (parseUnsignedRat cs).map (- ·)
  | cs => parseUnsignedRat cs

/-- An operand of a type. -/
def parseOperand (names : BusNames) : OperandType → List Char → Option Operand
  | .int, cs => (parseInt cs).map Operand.ofInt
  | .rat, cs => (parseRat cs).map Operand.number
  | .bool, ['0'] => some (Operand.ofBool false)
  | .bool, ['1'] => some (Operand.ofBool true)
  | .busConfig, '@' :: name => (names.lookup name).map Operand.bus
  | _, _ => none

/-- A text without the blanks at its two ends: any number of blanks, or none, may stand there.
DESIGN CHOICE (log entry 13). -/
def trimBlanks (cs : List Char) : List Char :=
  ((cs.dropWhile (· = ' ')).reverse.dropWhile (· = ' ')).reverse

/-- The operands of the given types, one for each text. -/
def parseOperands (names : BusNames) : List OperandType → List (List Char) → Option (List Operand)
  | [], [] => some []
  | t :: ts, x :: xs => do
    let y ← parseOperand names t (trimBlanks x)
    let ys ← parseOperands names ts xs
    return y :: ys
  | _, _ => none

/-- The texts between the commas of a text. -/
def splitCommas : List Char → List (List Char)
  | [] => [[]]
  | c :: cs =>
    match splitCommas cs with
    | [] => [[c]]
    | x :: xs => if c = ',' then [] :: x :: xs else (c :: x) :: xs

/-- The record of a line `MNEMONIC op1, op2, ...` or `MNEMONIC` (30_encoding.md R96). At least one
blank stands after a mnemonic with operands; any number of blanks, or none, stands at the two ends
of the line and around each operand, DESIGN CHOICE (log entry 13). -/
def assemble (names : BusNames) (line : List Char) : Option Record :=
  let text := trimBlanks line
  let rest := trimBlanks ((splitFirst ' ' text).2.getD [])
  do
    let tag ← tagOfMnemonic (splitFirst ' ' text).1
    let operands ← parseOperands names tag.operandTypes
      (if rest.isEmpty then [] else splitCommas rest)
    return ⟨tag, operands⟩

/-- An Int in decimal. -/
def listInt (v : Int) : List Char :=
  if v < 0 then '-' :: Nat.toDigits 10 v.natAbs else Nat.toDigits 10 v.natAbs

/-- A Rat as a whole number or a fraction. -/
def listRat (q : Rat) : List Char :=
  if q.den = 1 then listInt q.num else listInt q.num ++ '/' :: Nat.toDigits 10 q.den

/-- A Bool as 0 or 1. -/
def listBool (v : Bool) : List Char := if v then ['1'] else ['0']

/-- The operands of a command in listing form. -/
def listOperands (busName : BusConfig → List Char) : Instr → List (List Char)
  | .construct p c => [listInt p, '@' :: busName c]
  | .setField o b w v => [listInt o, listInt b, listInt w, listInt v]
  | .getField o b w => [listInt o, listInt b, listInt w]
  | .setChannel i p => [listInt i, listRat p]
  | .getChannel i => [listInt i]
  | .setAll p => [listRat p]
  | .setAllOff | .showFrame | .deinit => []
  | .setBrightness r g b => [listInt r, listInt g, listInt b]
  | .setFunctionControl ot eg tr dr bl =>
    [listBool ot, listBool eg, listBool tr, listBool dr, listBool bl]

/-- The line of a command, which shows which command was issued (30_encoding.md R96 and R97). -/
def listing (busName : BusConfig → List Char) (i : Instr) : List Char :=
  match listOperands busName i with
  | [] => (mnemonic i).toList
  | x :: xs => (mnemonic i).toList ++ ' ' :: List.intercalate [',', ' '] (x :: xs)

end Sys2Proof.Machine
end

