-- ==== Sys2Proof/Machine/ResultCodes.lean ====
section
/-! DEFINITION. The numbers of a result port that carries numbers (60_exceptions.md R208). -/

namespace Sys2Proof.Machine

/-- `(code, sub, value)` of a result port (60_exceptions.md R208). -/
structure ResultCode where
  code : Byte
  sub : Byte
  value : Option Int
deriving DecidableEq, Repr

/-- The code of a result (60_exceptions.md R208). -/
def resultCode : Result → ResultCode
  | .ok => ⟨0x00, 0x00, none⟩
  | .value n => ⟨0x01, 0x00, some n⟩
  | .err .badPixelCount => ⟨0x10, 0x01, none⟩
  | .err .busOpenFailed => ⟨0x10, 0x02, none⟩
  | .err .channelIndex => ⟨0x20, 0x01, none⟩
  | .err .pwmValue => ⟨0x20, 0x02, none⟩
  | .err .fieldGeometry => ⟨0x20, 0x03, none⟩
  | .err .transportFault => ⟨0x30, 0x00, none⟩
  | .stopped (.fault .notConfigured) => ⟨0x40, 0x01, none⟩
  | .stopped (.fault .useAfterRelease) => ⟨0x40, 0x02, none⟩
  | .stopped (.fault .alreadyConfigured) => ⟨0x40, 0x03, none⟩
  | .stopped (.refused (.illegalCommand tag)) => ⟨0x50, 0x01, some tag.toNat⟩
  | .stopped (.refused (.capacityExceeded p)) => ⟨0x50, 0x02, some p⟩

/-- The kind of a rejected call (60_exceptions.md R203 to R205). -/
inductive ErrorKind where
  | configurationError
  | rangeError
  | transportFault
deriving DecidableEq, Repr

/-- The kind a rejected call's sub-cause belongs to (60_exceptions.md R203 to R205). -/
def errorKind : CallError → ErrorKind
  | .badPixelCount | .busOpenFailed => .configurationError
  | .channelIndex | .pwmValue | .fieldGeometry => .rangeError
  | .transportFault => .transportFault

end Sys2Proof.Machine
end

