-- ==== Sys2Proof/Machine/Wire.lean ====
section
/-! DEFINITION. The bits of a transmitted frame on the transmit port (30_encoding.md R89). The
observation of a run is `txlog`, whose entries hold bytes; this is how those bytes leave. -/

namespace Sys2Proof.Machine

/-- The eight bits of a byte in the order they leave (30_encoding.md R89). -/
def wireBitsOfByte (order : WireBitOrder) (b : Byte) : List Bool :=
  match order with
  | .msbFirst => [b.getLsbD 7, b.getLsbD 6, b.getLsbD 5, b.getLsbD 4, b.getLsbD 3, b.getLsbD 2,
      b.getLsbD 1, b.getLsbD 0]
  | .lsbFirst => [b.getLsbD 0, b.getLsbD 1, b.getLsbD 2, b.getLsbD 3, b.getLsbD 4, b.getLsbD 5,
      b.getLsbD 6, b.getLsbD 7]

/-- The bits of a frame in the order they leave: bytes in ascending offset order
(30_encoding.md R89). -/
def wireBits (order : WireBitOrder) (frame : List Byte) : List Bool :=
  frame.flatMap (wireBitsOfByte order)

end Sys2Proof.Machine
end

