-- ==== Sys2Proof/Safety.lean ====
section
/-! DEFINITION. What the claims speak of: a running driver, the block's invariant, the agreement of
headers and registers, and a run of one command after another. -/

namespace Sys2Proof.Machine

/-- A command other than CONSTRUCT passes the common checks: no stop, life Ready
(60_exceptions.md R210). -/
abbrev State.Running (s : State) : Prop := s.block.halt = none ∧ s.block.life = .ready

/-- The geometry, table and bus of a live driver (10_state.md R24, R25 and R30). -/
abbrev Block.DriverOK (b : Block) : Prop :=
  0 < b.pixels ∧ b.pixels % 4 = 0 ∧ b.chips = chipCount b.pixels ∧
    b.channels = channelCount b.pixels ∧ b.frameLen = frameLength b.pixels ∧
    b.lut = lookupTable b.channels ∧ b.bus ≠ .closed

/-- No driver exists: every element that CONSTRUCT makes is as at power-on (10_state.md R24 to R30,
43_lifecycle.md R188). -/
abbrev Block.NoDriver (b : Block) : Prop :=
  b = { Block.powerOn with life := b.life, halt := b.halt, txlog := b.txlog }

/-- The block's invariant: the buffer is canonical and lies within its L bytes, and the driver's
elements are there exactly while life is Ready. -/
abbrev Block.Inv (b : Block) : Prop :=
  b.buf.wf ∧ (∀ c ∈ b.buf, c.1 < b.frameLen) ∧ (b.life = .ready → b.DriverOK) ∧
    (b.life ≠ .ready → b.NoDriver)

/-- The invariant of the machine. -/
abbrev State.Inv (s : State) : Prop := s.block.Inv

/-- The header word of chip `c` as it stands in the buffer (20_memory.md R56). -/
def Block.headerOf (b : Block) (c : Nat) : Word := b.buf.read32 (headerOffset c)

/-- The slot of physical channel `j` as it stands in the buffer (20_memory.md R58). -/
def Block.slotOf (b : Block) (j : Nat) : Slot := b.buf.read16 (channelOffset j)

/-- Every header holds WRITE_CMD and the registers (10_state.md R35). -/
abbrev State.HeadersAgree (s : State) : Prop :=
  ∀ c, c < s.block.chips → s.block.headerOf c = s.block.registerHeader s.config.writeCmd

/-- Commands run one after another while each gives a next state. -/
def execAll : List Instr → State → Outcome
  | [], s => .next s
  | i :: is, s =>
    match exec i s with
    | .next t => execAll is t
    | .fault f => .fault f
    | .refused r => .refused r

end Sys2Proof.Machine
end

