-- ==== Sys2Proof/Certificates/Slice0/Obligations.lean ====
section
/-! DEFINITION. The statements about the model, one definition each. A statement about commands
holds for every parameter of Config, because the parameters stand in the state. -/

open Sys2Proof Sys2Proof.Machine

/-! ## Encoding (30_encoding.md) -/

/-- Eleven records written out from the tag table decode to their commands
(30_encoding.md R93). -/
def Obligations.DecodeReadsTheTagTable : Prop :=
  decode ⟨0x01#8, [.number 4, .bus ⟨7⟩]⟩ = .ok (.construct 4 ⟨7⟩) ∧
  decode ⟨0x02#8, [.number 0, .number 26, .number 6, .number 37]⟩ = .ok (.setField 0 26 6 37) ∧
  decode ⟨0x03#8, [.number 28, .number 14, .number 7]⟩ = .ok (.getField 28 14 7) ∧
  decode ⟨0x04#8, [.number 3, .number 12]⟩ = .ok (.setChannel 3 12) ∧
  decode ⟨0x05#8, [.number 6]⟩ = .ok (.getChannel 6) ∧
  decode ⟨0x06#8, [.number 25]⟩ = .ok (.setAll 25) ∧
  decode ⟨0x07#8, []⟩ = .ok .setAllOff ∧
  decode ⟨0x08#8, [.number 10, .number 20, .number 30]⟩ = .ok (.setBrightness 10 20 30) ∧
  decode ⟨0x09#8, [.number 0, .number 1, .number 0, .number 0, .number 1]⟩ =
    .ok (.setFunctionControl false true false false true) ∧
  decode ⟨0x0A#8, []⟩ = .ok .showFrame ∧
  decode ⟨0x0B#8, []⟩ = .ok .deinit

/-- Decoding and encoding are inverse: a record decodes to a command exactly when it is that
command's encoding, with every operand at every value (30_encoding.md R90 to R94). -/
def Obligations.DecodeAndEncodeAgree : Prop :=
  ∀ (r : Record) (i : Instr), decode r = .ok i ↔ r = encode i

/-- The tag alone selects the command (30_encoding.md R92): of two records that decode, the tags
are equal exactly when the commands are the same one, and then the forms have one length. -/
def Obligations.TagAloneSelectsTheCommand : Prop :=
  ∀ (r r' : Record) (i i' : Instr), decode r = .ok i → decode r' = .ok i' →
    (r.tag = r'.tag ↔ mnemonic i = mnemonic i') ∧
    (r.tag = r'.tag → r.operands.length = r'.operands.length)

/-- A record is accepted exactly when its tag is legal and each operand has the type the tag
requires, one operand for each type: a whole number for Int, a finite number for Rat, 0 or 1 for
Bool (30_encoding.md R91 for the types). That the number of operands is checked (DEDUCED), and that
an Int and a Bool are held as numbers, is the model's choice, log entry 10. -/
def Obligations.DecodeAcceptsExactlyTheWellTyped : Prop :=
  (∀ r : Record, (∃ i, decode r = .ok i) ↔
    (0x01#8 ≤ r.tag ∧ r.tag ≤ 0x0B#8 ∧ operandsFit r.tag.operandTypes r.operands = true)) ∧
  (∀ x : Operand, (x.hasType .int = true ↔ ∃ n : Int, x = .number n) ∧
    (x.hasType .rat = true ↔ ∃ q, x = .number q) ∧
    (x.hasType .bool = true ↔ x = .number 0 ∨ x = .number 1) ∧
    (x.hasType .busConfig = true ↔ ∃ c, x = .bus c))

/-- A step runs the decoded command: the record at the head of the command port is taken off it
and, when it decodes, `exec` of its command is the step (00_scope.md R18). -/
def Obligations.StepRunsTheDecodedCommand : Prop :=
  ∀ (s : State) (r : Record) (rest : List Record) (i : Instr),
    s.port.pending = r :: rest → decode r = .ok i → step s = exec i (s.withPending rest)

/-- A record with a legal tag whose operands do not fit it is refused before the block: by the name
operandCount exactly when the number of operands is not the tag's, else by operandType
(30_encoding.md R91 for an operand's type). That a wrong number of operands is refused too, by those
names and also on a stopped block, is the model's choice, log entry 10. -/
def Obligations.IllTypedRecordIsRefusedBeforeTheBlock : Prop :=
  ∀ (s : State) (r : Record) (rest : List Record), s.port.pending = r :: rest → r.tag.legal →
    operandsFit r.tag.operandTypes r.operands = false →
    step s = .refused (.notACommand
      (if r.operands.length = r.tag.operandTypes.length then .operandType r.tag
        else .operandCount r.tag r.operands.length))

/-- Tag 0x00 and tags 0x0C to 0xFF select no command: in every lifecycle state the block takes the
sticky stop Refused(IllegalCommand(tag)) and returns it (30_encoding.md R95). That it does so whatever
the operands is the model's choice, DEDUCED, log entry 11. -/
def Obligations.IllegalTagStopsTheBlock : Prop :=
  ∀ (s : State) (r : Record) (rest : List Record), s.port.pending = r :: rest →
    (r.tag = 0x00#8 ∨ 0x0C#8 ≤ r.tag) → s.block.halt = none →
    step s = .next (((s.withPending rest).withBlock
      (s.block.withHalt (.refused (.illegalCommand r.tag)))).reply
        (.stopped (.refused (.illegalCommand r.tag))))

/-- A line the assembler accepts is a command, and every command's listing is a line that it reads
as exactly that command, where the table of bus names gives the command's bus back from its name and
that name holds no comma and no blank (30_encoding.md R96 and R97). The points of the syntax that R96
leaves open, among them how a listing writes an operand, are the model's choice, log entry 13. -/
def Obligations.AssembledLinesAreCommands : Prop :=
  ∀ (names : BusNames), (∀ (line : List Char) (r : Record), assemble names line = some r →
      r.wellFormed) ∧
    ∀ (busName : BusConfig → List Char) (i : Instr),
      (∀ p c, i = .construct p c →
        names.lookup (busName c) = some c ∧ ∀ ch ∈ busName c, ch ≠ ',' ∧ ch ≠ ' ') →
      assemble names (listing busName i) = some (encode i)

/-- A listing's text up to its first blank is the mnemonic that the tag table gives the command's
tag, so it shows which command was issued, SET_ALL_OFF apart from SET_ALL 0 (30_encoding.md R93 and
R97). That a listing is the mnemonic and then its operands is R96's syntax, with the choices of log
entry 13. -/
def Obligations.ListingShowsTheCommand : Prop :=
  (∀ (busName : BusConfig → List Char) (i : Instr), ∃ row ∈
      [("CONSTRUCT", 0x01#8), ("SET_FIELD", 0x02#8), ("GET_FIELD", 0x03#8),
        ("SET_CHANNEL", 0x04#8), ("GET_CHANNEL", 0x05#8), ("SET_ALL", 0x06#8),
        ("SET_ALL_OFF", 0x07#8), ("SET_BRIGHTNESS", 0x08#8), ("SET_FUNCTION_CONTROL", 0x09#8),
        ("SHOW", 0x0A#8), ("DEINIT", 0x0B#8)],
      row.2 = i.tag ∧ (listing busName i).takeWhile (fun ch => ch != ' ') = row.1.toList) ∧
  ∀ (busName busName' : BusConfig → List Char) (i i' : Instr),
    listing busName i = listing busName' i' → i.tag = i'.tag

/-! ## Machine-wide rules -/

/-- The state at power-on meets the invariant (70_reset_and_hazards.md R230). The zero and empty
values of the elements that do not exist yet are the model's choice, log entry 4. -/
def Obligations.ResetMeetsTheInvariant : Prop :=
  State.reset.Inv ∧ State.reset.block.life = .unconfigured ∧ State.reset.block.halt = none ∧
    State.reset.block.bus = .closed ∧ State.reset.block.txlog = []

/-- Every step keeps the invariant: the buffer stays canonical and inside its L bytes, and the
geometry, the table and the open bus are there exactly while life is Ready; otherwise the driver's
elements are held as at power-on, the model's choice of log entry 4. -/
def Obligations.StepKeepsTheInvariant : Prop :=
  ∀ s t : State, s.Inv → step s = .next t → t.Inv

/-- From a state that meets the invariant every command completes with a next state, whatever its
operands and the oracles' answers: no primitive of the model faults (00_scope.md R14, R18). The next
state is the command's own effect, a rejected call or a stop; which one, the commands' own
statements say. -/
def Obligations.EveryCommandCompletes : Prop :=
  ∀ (i : Instr) (s : State), s.Inv → ∃ t, exec i s = .next t

/-- From a state that meets the invariant a step is next, or it is refused by notACommand and the
record at the head of the port has a legal tag whose operands do not fit it; so it never faults.
That a wrong number of operands is refused (log entry 10) and that an illegal tag is a next state
whatever its operands (log entry 11) are the model's choices. -/
def Obligations.StepIsRefusedOnlyOnIllTypedRecords : Prop :=
  ∀ s : State, s.Inv →
    (∃ t, step s = .next t) ∨
    (∃ r rest, s.port.pending = r :: rest ∧ r.tag.legal ∧
      operandsFit r.tag.operandTypes r.operands = false ∧
      step s = .refused (.notACommand
        (if r.operands.length = r.tag.operandTypes.length then .operandType r.tag
          else .operandCount r.tag r.operands.length)))

/-- Every command that gives a next state returns exactly one result, keeps the earlier results and
takes no further command off the port (60_exceptions.md R200). -/
def Obligations.EveryCommandReturnsOneResult : Prop :=
  ∀ (i : Instr) (s t : State), exec i s = .next t →
    ∃ r, t.port.results = s.port.results ++ [r] ∧ t.port.pending = s.port.pending

/-- No command changes a parameter: WRITE_CMD and the others are constants (10_state.md R29). -/
def Obligations.ParametersNeverChange : Prop :=
  ∀ s t : State, step s = .next t → t.config = s.config

/-- The only writers of the state elements (10_state.md, section 9): geometry, table and bus by
CONSTRUCT and DEINIT; the brightness registers also by SET_BRIGHTNESS; the function-control
registers also by SET_FUNCTION_CONTROL; the buffer by no read and not by SHOW; life by CONSTRUCT and
DEINIT; the log by SHOW and SET_BRIGHTNESS; halt, from None, by a command that returns the stop it
sets, and by nothing else. -/
def Obligations.StateElementsHaveTheirWriters : Prop :=
  ∀ (i : Instr) (s t : State), exec i s = .next t →
    (t.block.halt = s.block.halt ∨
      (s.block.halt = none ∧ ∃ stop, t.block.halt = some stop ∧
        t.port.results = s.port.results ++ [.stopped stop])) ∧
    (i.tag ≠ 0x0A#8 → i.tag ≠ 0x08#8 → t.block.txlog = s.block.txlog) ∧
    (i.tag ≠ 0x01#8 → i.tag ≠ 0x0B#8 →
      (t.block.pixels = s.block.pixels ∧ t.block.chips = s.block.chips ∧
        t.block.channels = s.block.channels ∧ t.block.frameLen = s.block.frameLen ∧
        t.block.lut = s.block.lut ∧ t.block.bus = s.block.bus ∧ t.block.life = s.block.life) ∧
      (i.tag ≠ 0x08#8 → t.block.bcr = s.block.bcr ∧ t.block.bcg = s.block.bcg ∧
        t.block.bcb = s.block.bcb) ∧
      (i.tag ≠ 0x09#8 → t.block.outtmg = s.block.outtmg ∧ t.block.extgck = s.block.extgck ∧
        t.block.tmgrst = s.block.tmgrst ∧ t.block.dsprpt = s.block.dsprpt ∧
        t.block.blank = s.block.blank) ∧
      (i.tag = 0x03#8 ∨ i.tag = 0x05#8 ∨ i.tag = 0x0A#8 → t.block.buf = s.block.buf))

/-- The lifecycle moves only from Unconfigured or Released to Ready by CONSTRUCT, and from Ready to
Released by DEINIT (10_state.md R31). -/
def Obligations.LifecycleMovesOnlyByConstructAndDeinit : Prop :=
  ∀ (i : Instr) (s t : State), exec i s = .next t →
    t.block.life = s.block.life ∨
    (i.tag = 0x01#8 ∧ s.block.life ≠ .ready ∧ t.block.life = .ready) ∨
    (i.tag = 0x0B#8 ∧ s.block.life = .ready ∧ t.block.life = .released)

/-- The transmit log (10_state.md R33): empty at power-on, only appended to, one entry at a time,
only by SHOW and SET_BRIGHTNESS, each entry with the L bytes of the buffer as they stand;
CONSTRUCT does not clear it. -/
def Obligations.TransmitLogOnlyGrowsByShows : Prop :=
  State.reset.block.txlog = [] ∧
  ∀ (i : Instr) (s t : State), exec i s = .next t →
    t.block.txlog = s.block.txlog ∨
    ((i.tag = 0x0A#8 ∨ i.tag = 0x08#8) ∧
      ∃ e : Transmission, t.block.txlog = s.block.txlog ++ [e] ∧
        e.bytes.length = t.block.frameLen ∧
        ∀ k, k < t.block.frameLen → e.bytes[k]? = some (t.block.buf.read k))

/-- A rejected call of kind ConfigurationError or RangeError leaves every element of the block
exactly as it was (60_exceptions.md R202). -/
def Obligations.RejectedCallsChangeNothing : Prop :=
  ∀ (i : Instr) (s t : State) (e : CallError), exec i s = .next t →
    t.port.results = s.port.results ++ [.err e] → errorKind e ≠ .transportFault →
    t.block = s.block

/-- Which commands raise which error: ConfigurationError only CONSTRUCT, ChannelIndex the two
channel commands, PwmValue SET_CHANNEL and SET_ALL, FieldGeometry the codec's commands,
TransportFault SHOW and SET_BRIGHTNESS (60_exceptions.md R203 to R205). -/
def Obligations.ErrorsComeFromTheirCommands : Prop :=
  ∀ (i : Instr) (s t : State) (e : CallError), exec i s = .next t →
    t.port.results = s.port.results ++ [.err e] →
    match e with
    | .badPixelCount | .busOpenFailed => i.tag = 0x01#8
    | .channelIndex => i.tag = 0x04#8 ∨ i.tag = 0x05#8
    | .pwmValue => i.tag = 0x04#8 ∨ i.tag = 0x06#8
    | .fieldGeometry => i.tag = 0x02#8 ∨ i.tag = 0x03#8
    | .transportFault => i.tag = 0x0A#8 ∨ i.tag = 0x08#8

/-- A stop is sticky: while it is set every command, CONSTRUCT included, and every illegal tag
returns it and changes nothing; no entry is logged and no oracle is asked (60_exceptions.md R209 for
the commands). That an illegal tag is answered so whatever its operands is the model's choice,
DEDUCED, log entry 11. -/
def Obligations.StopIsSticky : Prop :=
  ∀ (s : State) (stop : Stop), s.block.halt = some stop →
    (∀ i : Instr, ∃ t, exec i s = .next t ∧ t.block = s.block ∧ t.config = s.config ∧
      t.port = { s.port with results := s.port.results ++ [.stopped stop] }) ∧
    (∀ (r : Record) (rest : List Record), s.port.pending = r :: rest → ¬ r.tag.legal →
      ∃ t, step s = .next t ∧ t.block = s.block ∧ t.config = s.config ∧
        t.port = { s.port with pending := rest, results := s.port.results ++ [.stopped stop] })

/-- The lifecycle faults: every command but CONSTRUCT before a driver exists and after it is
released, and CONSTRUCT over a live driver, set the sticky stop and change nothing else
(60_exceptions.md R206). -/
def Obligations.CommandsOutsideTheirLifecycleStopTheBlock : Prop :=
  ∀ (i : Instr) (s : State), s.block.halt = none →
    (s.block.life = .unconfigured → i.tag ≠ 0x01#8 →
      exec i s = .next ((s.withBlock (s.block.withHalt (.fault .notConfigured))).reply
        (.stopped (.fault .notConfigured)))) ∧
    (s.block.life = .released → i.tag ≠ 0x01#8 →
      exec i s = .next ((s.withBlock (s.block.withHalt (.fault .useAfterRelease))).reply
        (.stopped (.fault .useAfterRelease)))) ∧
    (s.block.life = .ready → i.tag = 0x01#8 →
      exec i s = .next ((s.withBlock (s.block.withHalt (.fault .alreadyConfigured))).reply
        (.stopped (.fault .alreadyConfigured))))

/-- The codes of the result port (60_exceptions.md R208): the table's numbers, and no two results
share a code. -/
def Obligations.ResultCodesAreTheTable : Prop :=
  (resultCode .ok = ⟨0x00, 0x00, none⟩ ∧
    (∀ n, resultCode (.value n) = ⟨0x01, 0x00, some n⟩) ∧
    resultCode (.err .badPixelCount) = ⟨0x10, 0x01, none⟩ ∧
    resultCode (.err .busOpenFailed) = ⟨0x10, 0x02, none⟩ ∧
    resultCode (.err .channelIndex) = ⟨0x20, 0x01, none⟩ ∧
    resultCode (.err .pwmValue) = ⟨0x20, 0x02, none⟩ ∧
    resultCode (.err .fieldGeometry) = ⟨0x20, 0x03, none⟩ ∧
    resultCode (.err .transportFault) = ⟨0x30, 0x00, none⟩ ∧
    resultCode (.stopped (.fault .notConfigured)) = ⟨0x40, 0x01, none⟩ ∧
    resultCode (.stopped (.fault .useAfterRelease)) = ⟨0x40, 0x02, none⟩ ∧
    resultCode (.stopped (.fault .alreadyConfigured)) = ⟨0x40, 0x03, none⟩ ∧
    (∀ tag : Tag, resultCode (.stopped (.refused (.illegalCommand tag))) =
      ⟨0x50, 0x01, some tag.toNat⟩) ∧
    (∀ p, resultCode (.stopped (.refused (.capacityExceeded p))) = ⟨0x50, 0x02, some p⟩)) ∧
  (∀ r r' : Result, resultCode r = resultCode r' → r = r')

/-! ## Layout and header (20_memory.md, 30_encoding.md) -/

/-- `Offset(j)` lies in chip `j div 12`'s region past its header, is injective, and reaches exactly
the even offsets of the slot areas of the frame (20_memory.md, sections 3 and 4). -/
def Obligations.ChannelOffsetsFillTheSlotAreas : Prop :=
  (∀ j, 28 * (j / 12) + 4 ≤ channelOffset j ∧ channelOffset j + 1 ≤ 28 * (j / 12) + 27 ∧
    channelOffset j - 28 * (j / 12) - 4 = j % 12 * 2) ∧
  (∀ j k, channelOffset j = channelOffset k → j = k) ∧
  (∀ c a, (∃ j, j < 12 * c ∧ channelOffset j = a) ↔ (a < 28 * c ∧ 4 ≤ a % 28 ∧ a % 2 = 0))

/-- Reversal of channel indices: it stays in range and is its own inverse, and a channel command on
logical channel `i` of a driver in order reaches the offset of physical channel `N - 1 - i`
(41_channel.md R130). -/
def Obligations.ChannelReversalIsAnInvolution : Prop :=
  (∀ (n : Nat) (i : Int), 0 ≤ i → i < n →
    0 ≤ reverseIndex n i ∧ reverseIndex n i < n ∧ reverseIndex n (reverseIndex n i) = i) ∧
  (∀ (b : Block) (i : Int), b.Inv → b.life = .ready → 0 ≤ i → i < b.channels →
    b.channelSlot i = .ok (channelOffset (b.channels - 1 - i.toNat)))

/-- A 32-bit read covers the same bytes as the 16-bit reads at its offset and two further on, the
first more significant (20_memory.md, sections 2). -/
def Obligations.WordReadIsTwoSlotReads : Prop :=
  ∀ (m : Memory) (o : Nat),
    (m.read32 o).toNat = (m.read16 o).toNat * 65536 + (m.read16 (o + 2)).toNat

/-- The header word (30_encoding.md, section 1): as an integer it is
`(WC << 26) | (FC << 21) | (BCR << 14) | (BCG << 7) | BCB`, with FC the five flags weighted
16, 8, 4, 2, 1. -/
def Obligations.HeaderWordPacksItsFields : Prop :=
  ∀ (wc : BitVec 6) (ot eg tr dr bl : Bool) (r g b : Brightness),
    (headerWord wc (fcField ot eg tr dr bl) (bcField r g b)).toNat =
      wc.toNat * 2 ^ 26 +
      (ot.toNat * 16 + eg.toNat * 8 + tr.toNat * 4 + dr.toNat * 2 + bl.toNat) * 2 ^ 21 +
      r.toNat * 2 ^ 14 + g.toNat * 2 ^ 7 + b.toNat

/-- Writing back a header's fields from the registers: `WriteFC(c)` equals one write of the whole
5-bit FC field, and `WriteBC(c)` one write of the whole 21-bit BC field
(42_config.md R160 and R161). -/
def Obligations.HeaderRewritesEqualOneFieldWrite : Prop :=
  ∀ (b : Block) (c : Nat), b.Inv → b.life = .ready → c < b.chips →
    (∃ b', writeFC c b = .ok b' ∧
      setFieldRaw (28 * c) 21 5 (fcField b.outtmg b.extgck b.tmgrst b.dsprpt b.blank).toNat b =
        .ok b') ∧
    (∃ b', writeBC c b = .ok b' ∧
      setFieldRaw (28 * c) 0 21 (bcField b.bcr b.bcg b.bcb).toNat b = .ok b')

/-- Header and registers agree after every command but SET_FIELD, from any state of the invariant
where they agree (10_state.md, section 8). -/
def Obligations.HeadersKeepAgreeingWithTheRegisters : Prop :=
  ∀ (i : Instr) (s t : State), s.Inv → s.HeadersAgree → i.tag ≠ 0x02#8 → exec i s = .next t →
    t.HeadersAgree

/-- No command but CONSTRUCT, DEINIT and SET_FIELD changes a write-command bit of a header, so a
SET_FIELD to those bits lasts (70_reset_and_hazards.md, section 3). -/
def Obligations.WriteCommandBitsLast : Prop :=
  ∀ (i : Instr) (s t : State), s.Inv → exec i s = .next t →
    i.tag ≠ 0x01#8 → i.tag ≠ 0x02#8 → i.tag ≠ 0x0B#8 →
    ∀ c, c < s.block.chips →
      (t.block.headerOf c).extractLsb' 26 6 = (s.block.headerOf c).extractLsb' 26 6

/-- The frame on the wire: bytes in ascending offset order, each most significant bit first at the
default WIRE_BIT_ORDER (30_encoding.md R89). -/
def Obligations.FrameLeavesMostSignificantBitFirst : Prop :=
  Config.default.wireBitOrder = .msbFirst ∧
  ∀ frame : List Byte, (wireBits .msbFirst frame).length = 8 * frame.length ∧
    ∀ (k j : Nat) (h : k < frame.length), j < 8 →
      (wireBits .msbFirst frame)[8 * k + j]? = some (frame[k].getLsbD (7 - j))

/-! ## Bit-field codec (40_bitfield.md) -/

/-- SET_FIELD: the field reads back as `v mod 2^w`, whatever v, no value being rejected; no other
bit of the word, no other byte, no other element of the block and no parameter changes; and the
result is Ok (40_bitfield.md R116, with the frame of section 1). -/
def Obligations.SetFieldWritesExactlyTheField : Prop :=
  ∀ (o b w v : Int) (s : State), s.Running → s.Inv →
    0 ≤ o → o + 4 ≤ s.block.frameLen → 0 ≤ b → 0 ≤ w → b + w ≤ 32 →
    ∃ t, exec (.setField o b w v) s = .next t ∧
      (((t.block.buf.read32 o.toNat).toNat / 2 ^ b.toNat % 2 ^ w.toNat : Nat) : Int) =
        v % 2 ^ w.toNat ∧
      (∀ k, k < b.toNat ∨ b.toNat + w.toNat ≤ k →
        (t.block.buf.read32 o.toNat).getLsbD k = (s.block.buf.read32 o.toNat).getLsbD k) ∧
      (∀ a, a < o.toNat ∨ o.toNat + 4 ≤ a → t.block.buf.read a = s.block.buf.read a) ∧
      t.block.withBuf s.block.buf = s.block ∧ t.config = s.config ∧ t.port = (s.reply .ok).port

/-- SET_FIELD and GET_FIELD reject exactly the geometries outside `0 ≤ o`, `o + 4 ≤ L`, `0 ≤ b`,
`0 ≤ w`, `b + w ≤ 32`, with RangeError(FieldGeometry) and nothing changed; an accepted geometry
has `w ≤ 32` and `b ≤ 32` (40_bitfield.md R111). -/
def Obligations.FieldGeometryIsChecked : Prop :=
  ∀ (o b w v : Int) (s : State), s.Running →
    (exec (.setField o b w v) s = .next (s.reply (.err .fieldGeometry)) ↔
      ¬ (0 ≤ o ∧ o + 4 ≤ s.block.frameLen ∧ 0 ≤ b ∧ 0 ≤ w ∧ b + w ≤ 32)) ∧
    (exec (.getField o b w) s = .next (s.reply (.err .fieldGeometry)) ↔
      ¬ (0 ≤ o ∧ o + 4 ≤ s.block.frameLen ∧ 0 ≤ b ∧ 0 ≤ w ∧ b + w ≤ 32)) ∧
    (0 ≤ b ∧ 0 ≤ w ∧ b + w ≤ 32 → w ≤ 32 ∧ b ≤ 32)

/-- GET_FIELD returns `(MemRead(o,4) div 2^b) mod 2^w`, which lies in 0 .. 2^w - 1, and changes no
state (40_bitfield.md, section 2). -/
def Obligations.GetFieldReturnsTheField : Prop :=
  ∀ (o b w : Int) (s : State), s.Running →
    0 ≤ o → o + 4 ≤ s.block.frameLen → 0 ≤ b → 0 ≤ w → b + w ≤ 32 →
    ∃ n : Nat, exec (.getField o b w) s = .next (s.reply (.value n)) ∧ n < 2 ^ w.toNat ∧
      n = (s.block.buf.read32 o.toNat).toNat / 2 ^ b.toNat % 2 ^ w.toNat

/-- A SET_FIELD of width 0 changes nothing and returns Ok, for any b from 0 to 32 and any value,
and a GET_FIELD of width 0 returns Value(0) (40_bitfield.md, section 3). -/
def Obligations.ZeroWidthFieldIsEmpty : Prop :=
  ∀ (o b v : Int) (s : State), s.Running → s.Inv →
    0 ≤ o → o + 4 ≤ s.block.frameLen → 0 ≤ b → b ≤ 32 →
    exec (.setField o b 0 v) s = .next (s.reply .ok) ∧
    exec (.getField o b 0) s = .next (s.reply (.value 0))

/-- Two SET_FIELDs on disjoint bit ranges of one word give the same machine in either order
(40_bitfield.md, section 1). -/
def Obligations.DisjointSetFieldsCommute : Prop :=
  ∀ (o b w v b' w' v' : Int) (s : State), s.Running → s.Inv →
    0 ≤ o → o + 4 ≤ s.block.frameLen → 0 ≤ b → 0 ≤ w → b + w ≤ b' → 0 ≤ w' → b' + w' ≤ 32 →
    ∃ t, execAll [.setField o b w v, .setField o b' w' v'] s = .next t ∧
      execAll [.setField o b' w' v', .setField o b w v] s = .next t

/-! ## Channels (41_channel.md) -/

/-- RoundHE gives the nearest integer, the even one at an exact half, and the examples of
00_scope.md R13; it is the default ROUND_MODE. -/
def Obligations.RoundingIsHalfToEven : Prop :=
  (∀ q : Rat, (∀ k : Int, |q - roundHE q| ≤ |q - k|) ∧
    (|q - roundHE q| = 1 / 2 → roundHE q % 2 = 0)) ∧
  (roundHE (1 / 2) = 0 ∧ roundHE (3 / 2) = 2 ∧ roundHE (5 / 2) = 2 ∧ roundHE (-1 / 2) = 0 ∧
    roundHE (-6 / 10) = -1 ∧ roundHE (196605 / 10) = 19660 ∧ roundHE (327675 / 10) = 32768) ∧
  Config.default.conversion = .exactHalfEven

/-- Under the default conversion a percent p becomes RoundHE(p × 65535 / 100), and SET_CHANNEL and
SET_ALL accept exactly -50/65535 ≤ p < 6553550/65535 (41_channel.md, sections 1 and 3). -/
def Obligations.AcceptedPercentInterval : Prop :=
  ∀ p : Rat, pctToPwm .exactHalfEven p = roundHE (p * 65535 / 100) ∧
    ((0 ≤ pctToPwm .exactHalfEven p ∧ pctToPwm .exactHalfEven p ≤ 65535) ↔
      (-50 / 65535 ≤ p ∧ p < 6553550 / 65535))

/-- PwmToPct is a percent from 0 to 100, strictly less than one half away from the exact quotient,
so no slot value is a tie (41_channel.md, section 1). -/
def Obligations.SlotPercentIsNearestAndNeverATie : Prop :=
  ∀ v : Slot, 0 ≤ pwmToPct v ∧ pwmToPct v ≤ 100 ∧
    |(pwmToPct v : Rat) - (v.toNat : Rat) * 100 / 65535| < 1 / 2

/-- The tie percents (41_channel.md, section 3), and the binary64 conversion agrees with the exact
one on every whole percent. -/
def Obligations.TiePercentsGoToEven : Prop :=
  pctToPwm .exactHalfEven 10 = 6554 ∧ pctToPwm .exactHalfEven 30 = 19660 ∧
  pctToPwm .exactHalfEven 50 = 32768 ∧ pctToPwm .exactHalfEven 70 = 45874 ∧
  pctToPwm .exactHalfEven 90 = 58982 ∧
  ∀ k : Fin 101, pctToPwm .binary64 (k.val : Rat) = pctToPwm .exactHalfEven (k.val : Rat)

/-- SET_CHANNEL (41_channel.md R133): a bad index is rejected first, then a bad value; otherwise the
slot at `lut[Rev(i)]` holds PctToPwm(p), which is RoundHE(p × 65535 / 100) by default, big-endian,
every other byte, element and parameter is unchanged, and the result is Ok. -/
def Obligations.SetChannelStoresThePwmValue : Prop :=
  ∀ (i : Int) (p : Rat) (s : State), s.Running → s.Inv →
    (¬ (0 ≤ i ∧ i < s.block.channels) →
      exec (.setChannel i p) s = .next (s.reply (.err .channelIndex))) ∧
    (0 ≤ i ∧ i < s.block.channels → ¬ pwmOK (pctToPwm s.config.conversion p) →
      exec (.setChannel i p) s = .next (s.reply (.err .pwmValue))) ∧
    (0 ≤ i ∧ i < s.block.channels → pwmOK (pctToPwm s.config.conversion p) →
      ∃ t a, exec (.setChannel i p) s = .next t ∧ s.block.channelSlot i = .ok a ∧
        a = channelOffset (s.block.channels - 1 - i.toNat) ∧
        ((t.block.buf.read16 a).toNat : Int) = pctToPwm s.config.conversion p ∧
        (s.config.conversion = .exactHalfEven →
          ((t.block.buf.read16 a).toNat : Int) = roundHE (p * 65535 / 100)) ∧
        (∀ x, x < a ∨ a + 2 ≤ x → t.block.buf.read x = s.block.buf.read x) ∧
        t.block.withBuf s.block.buf = s.block ∧ t.config = s.config ∧
        t.port = (s.reply .ok).port)

/-- GET_CHANNEL (41_channel.md R134): a bad index is rejected; otherwise the percent of the slot at
`lut[Rev(i)]` is returned. No state changes. -/
def Obligations.GetChannelReturnsThePercent : Prop :=
  ∀ (i : Int) (s : State), s.Running → s.Inv →
    (¬ (0 ≤ i ∧ i < s.block.channels) →
      exec (.getChannel i) s = .next (s.reply (.err .channelIndex))) ∧
    (0 ≤ i ∧ i < s.block.channels →
      ∃ a, s.block.channelSlot i = .ok a ∧
        a = channelOffset (s.block.channels - 1 - i.toNat) ∧
        exec (.getChannel i) s = .next (s.reply
          (.value (roundHE (((s.block.buf.read16 a).toNat : Rat) * 100 / 65535)))))

/-- Round trip: GET_CHANNEL after SET_CHANNEL of the same channel returns an integer less than 1
away from the percent, and the percent itself when it is a whole number
(41_channel.md, section 3). The premise on the conversion is the default parameter. -/
def Obligations.ChannelRoundTrip : Prop :=
  ∀ (i : Int) (p : Rat) (s : State), s.Running → s.Inv →
    s.config.conversion = .exactHalfEven → 0 ≤ i → i < s.block.channels → 0 ≤ p → p ≤ 100 →
    ∃ (t : State) (k : Int), exec (.setChannel i p) s = .next t ∧
      exec (.getChannel i) t = .next (t.reply (.value k)) ∧ |(k : Rat) - p| < 1 ∧
      (p.den = 1 → (k : Rat) = p)

/-- SET_CHANNEL on one channel changes no other channel's slot and no header
(41_channel.md, section 3). -/
def Obligations.ChannelsDoNotInterfere : Prop :=
  ∀ (i j : Int) (p : Rat) (s t : State), s.Running → s.Inv → 0 ≤ j → j < s.block.channels →
    i ≠ j → exec (.setChannel i p) s = .next t →
    readChannel j t.block = readChannel j s.block ∧
    (∃ v, readChannel j s.block = .ok v) ∧
    ∀ c, c < s.block.chips → t.block.headerOf c = s.block.headerOf c

/-- SET_ALL (41_channel.md R135): a bad value is rejected; otherwise every channel slot of every
chip holds PctToPwm(p), headers, every other element and the parameters are unchanged, nothing is
transmitted and the result is Ok. -/
def Obligations.SetAllStoresEveryChannel : Prop :=
  ∀ (p : Rat) (s : State), s.Running → s.Inv →
    (¬ pwmOK (pctToPwm s.config.conversion p) →
      exec (.setAll p) s = .next (s.reply (.err .pwmValue))) ∧
    (pwmOK (pctToPwm s.config.conversion p) →
      ∃ t, exec (.setAll p) s = .next t ∧
        (∀ j, j < s.block.channels →
          ((t.block.slotOf j).toNat : Int) = pctToPwm s.config.conversion p) ∧
        (∀ a, (∀ j, j < s.block.channels → a < channelOffset j ∨ channelOffset j + 2 ≤ a) →
          t.block.buf.read a = s.block.buf.read a) ∧
        (∀ c, c < s.block.chips → t.block.headerOf c = s.block.headerOf c) ∧
        t.block.withBuf s.block.buf = s.block ∧ t.config = s.config ∧
        t.port = (s.reply .ok).port)

/-- SET_ALL leaves the block that SET_CHANNEL of every logical index in ascending order leaves
(41_channel.md, section 2). -/
def Obligations.SetAllEqualsSetChannelOfEachIndex : Prop :=
  ∀ (p : Rat) (s : State), s.Running → s.Inv → pwmOK (pctToPwm s.config.conversion p) →
    ∃ t u, exec (.setAll p) s = .next t ∧
      execAll ((List.range s.block.channels).map fun (i : Nat) => .setChannel (i : Int) p) s = .next u ∧
      t.block = u.block

/-- SET_ALL_OFF (41_channel.md R136): every channel slot is 0x0000, headers and everything else are
unchanged, the result is Ok, and the effect is that of SET_ALL 0 under either conversion. -/
def Obligations.SetAllOffStoresZeroEverywhere : Prop :=
  ∀ s : State, s.Running → s.Inv →
    ∃ t, exec .setAllOff s = .next t ∧ exec (.setAll 0) s = .next t ∧
      (∀ j, j < s.block.channels → t.block.slotOf j = 0x0000#16) ∧
      (∀ a, (∀ j, j < s.block.channels → a < channelOffset j ∨ channelOffset j + 2 ≤ a) →
        t.block.buf.read a = s.block.buf.read a) ∧
      (∀ c, c < s.block.chips → t.block.headerOf c = s.block.headerOf c) ∧
      t.block.withBuf s.block.buf = s.block ∧ t.config = s.config ∧ t.port = (s.reply .ok).port

/-! ## Configuration (42_config.md) -/

/-- SET_BRIGHTNESS (42_config.md R162 and R163): the registers take the operands mod 128, every
header's bits 20:0 become the registers and its bits 31:21 stay, no slot byte and no other element
changes, the whole buffer is then presented once on the open bus and logged with the answer, and
the result is Ok or TransportFault with nothing rolled back. -/
def Obligations.SetBrightnessRewritesAndTransmits : Prop :=
  ∀ (r g b : Int) (s : State) (cfg : BusConfig), s.Running → s.Inv → s.block.bus = .opened cfg →
    ∃ t, exec (.setBrightness r g b) s = .next t ∧
      (t.block.bcr.toNat : Int) = r % 128 ∧ (t.block.bcg.toNat : Int) = g % 128 ∧
      (t.block.bcb.toNat : Int) = b % 128 ∧
      (∀ c, c < s.block.chips → t.block.headerOf c =
        (s.block.headerOf c).extractLsb' 21 11 ++
          bcField t.block.bcr t.block.bcg t.block.bcb) ∧
      (∀ a, (∀ c, c < s.block.chips → a < headerOffset c ∨ headerOffset c + 4 ≤ a) →
        t.block.buf.read a = s.block.buf.read a) ∧
      t.block.txlog = s.block.txlog ++
        [⟨t.block.frame, (s.port.askTransmit cfg t.block.frame).1⟩] ∧
      ((t.block.withBuf s.block.buf).withBrightness s.block.bcr s.block.bcg s.block.bcb) =
        { s.block with txlog := t.block.txlog } ∧
      t.config = s.config ∧
      t.port = ((s.withPort (s.port.askTransmit cfg t.block.frame).2).reply
        (if (s.port.askTransmit cfg t.block.frame).1 = .ok then .ok
          else .err .transportFault)).port

/-- SET_FUNCTION_CONTROL (42_config.md R164): the five registers take the operands, every header's
bits 25:21 become them and its other bits stay, no slot byte and no other element changes, nothing
is transmitted, and the result is Ok. -/
def Obligations.SetFunctionControlRewritesWithoutTransmitting : Prop :=
  ∀ (ot eg tr dr bl : Bool) (s : State), s.Running → s.Inv →
    ∃ t, exec (.setFunctionControl ot eg tr dr bl) s = .next t ∧
      (t.block.outtmg = ot ∧ t.block.extgck = eg ∧ t.block.tmgrst = tr ∧ t.block.dsprpt = dr ∧
        t.block.blank = bl) ∧
      (∀ c, c < s.block.chips → t.block.headerOf c =
        (s.block.headerOf c).extractLsb' 26 6 ++ fcField ot eg tr dr bl ++
          (s.block.headerOf c).extractLsb' 0 21) ∧
      (∀ a, (∀ c, c < s.block.chips → a < headerOffset c ∨ headerOffset c + 4 ≤ a) →
        t.block.buf.read a = s.block.buf.read a) ∧
      ((t.block.withBuf s.block.buf).withFunctionControl s.block.outtmg s.block.extgck
        s.block.tmgrst s.block.dsprpt s.block.blank) = s.block ∧
      t.config = s.config ∧ t.port = (s.reply .ok).port

/-- The asymmetry: SET_BRIGHTNESS transmits once and SET_FUNCTION_CONTROL does not
(42_config.md R165). -/
def Obligations.BrightnessTransmitsAndFunctionControlDoesNot : Prop :=
  ∀ (s : State) (r g b : Int) (ot eg tr dr bl : Bool), s.Running → s.Inv →
    (∃ t, exec (.setBrightness r g b) s = .next t ∧
      t.block.txlog.length = s.block.txlog.length + 1 ∧ t.port.asks = s.port.asks + 1) ∧
    (∃ t, exec (.setFunctionControl ot eg tr dr bl) s = .next t ∧
      t.block.txlog = s.block.txlog ∧ t.port.asks = s.port.asks ∧
      t.port.transmitScript = s.port.transmitScript)

/-- The staging commands are idempotent: SET_FIELD, SET_CHANNEL, SET_ALL, SET_ALL_OFF and
SET_FUNCTION_CONTROL issued twice leave the block that once leaves; SHOW and SET_BRIGHTNESS leave
the same buffer and registers and one more log entry (20_memory.md, section 4). -/
def Obligations.StagingCommandsAreIdempotent : Prop :=
  ∀ (i : Instr) (s t u : State), s.Running → s.Inv → exec i s = .next t → exec i t = .next u →
    (i.tag = 0x02#8 ∨ i.tag = 0x04#8 ∨ i.tag = 0x06#8 ∨ i.tag = 0x07#8 ∨ i.tag = 0x09#8 →
      u.block = t.block) ∧
    (i.tag = 0x08#8 ∨ i.tag = 0x0A#8 →
      u.block = { t.block with txlog := u.block.txlog } ∧
      u.block.txlog.length = t.block.txlog.length + 1)

/-! ## Lifecycle and transmission (43_lifecycle.md) -/

/-- CONSTRUCT with an acceptable pixel count and a bus that opens (43_lifecycle.md R180 and
70_reset_and_hazards.md R232): the geometry, the lookup table, in every chip a header of
WRITE_CMD, FC = 0b10110 and BC_DEFAULT and zero slots (at the default parameters 0x96DFFFFF), the
default registers, the open bus, life Ready, the log kept, nothing transmitted, result Ok. -/
def Obligations.ConstructBuildsTheDriver : Prop :=
  ∀ (p : Int) (cfg : BusConfig) (s : State), s.block.halt = none → s.block.life ≠ .ready →
    (∀ m, s.config.maxPixels = some m → p ≤ m) → 0 < p → p % 4 = 0 →
    (s.port.askBusOpen cfg).1 = .ok →
    ∃ t, exec (.construct p cfg) s = .next t ∧
      ((t.block.pixels : Int) = p ∧ t.block.chips = t.block.pixels / 4 ∧
        t.block.channels = 3 * t.block.pixels ∧ t.block.channels = 12 * t.block.chips ∧
        t.block.frameLen = 28 * t.block.chips) ∧
      (t.block.lut.length = t.block.channels ∧ ∀ j, j < t.block.channels →
        t.block.lut[j]? = some (28 * (j / 12) + 4 + 2 * (j % 12))) ∧
      (∀ c, c < t.block.chips → t.block.headerOf c =
        headerWord s.config.writeCmd 0b10110#5
          (bcField s.config.bcrDefault s.config.bcgDefault s.config.bcbDefault)) ∧
      (s.config.writeCmd = 0b100101#6 → s.config.bcrDefault = 127#7 → s.config.bcgDefault = 127#7 →
        s.config.bcbDefault = 127#7 →
        ∀ c, c < t.block.chips → t.block.headerOf c = 0x96DFFFFF#32) ∧
      (∀ a, (∀ c, c < t.block.chips → a < headerOffset c ∨ headerOffset c + 4 ≤ a) →
        t.block.buf.read a = 0x00#8) ∧
      (t.block.bcr = s.config.bcrDefault ∧ t.block.bcg = s.config.bcgDefault ∧
        t.block.bcb = s.config.bcbDefault) ∧
      (t.block.outtmg = true ∧ t.block.extgck = false ∧ t.block.tmgrst = true ∧
        t.block.dsprpt = true ∧ t.block.blank = false) ∧
      t.block.bus = .opened cfg ∧ t.block.life = .ready ∧ t.block.halt = none ∧
      t.block.txlog = s.block.txlog ∧ t.config = s.config ∧
      t.port = ((s.withPort (s.port.askBusOpen cfg).2).reply .ok).port ∧
      t.port.transmitScript = s.port.transmitScript

/-- The pixel count of CONSTRUCT (43_lifecycle.md R181), the capacity checked first, as the order of
R180 and of 60_exceptions.md R210 has it, with MAX_PIXELS a natural number (log entry 12): above a
bounded MAX_PIXELS the block stops with CapacityExceeded; otherwise it is accepted exactly when positive and a multiple of 4, and
else rejected with BadPixelCount before any other effect, the bus not being asked. -/
def Obligations.ConstructChecksThePixelCount : Prop :=
  ∀ (p : Int) (cfg : BusConfig) (s : State), s.block.halt = none → s.block.life ≠ .ready →
    ((∃ m, s.config.maxPixels = some m ∧ (m : Int) < p) →
      exec (.construct p cfg) s =
        .next ((s.withBlock (s.block.withHalt (.refused (.capacityExceeded p)))).reply
          (.stopped (.refused (.capacityExceeded p))))) ∧
    ((∀ m, s.config.maxPixels = some m → p ≤ m) →
      (exec (.construct p cfg) s = .next (s.reply (.err .badPixelCount)) ↔
        ¬ (0 < p ∧ p % 4 = 0)))

/-- CONSTRUCT asks the bus-open oracle once, after the pixel-count check; when it fails, BusOpenFailed
is returned, the state is unchanged and, where the invariant held, no bus is held
(43_lifecycle.md R182). -/
def Obligations.ConstructReportsABusThatDoesNotOpen : Prop :=
  ∀ (p : Int) (cfg : BusConfig) (s : State), s.block.halt = none → s.block.life ≠ .ready →
    (∀ m, s.config.maxPixels = some m → p ≤ m) → 0 < p → p % 4 = 0 →
    (s.port.askBusOpen cfg).1 = .fail →
    ∃ t, exec (.construct p cfg) s = .next t ∧ t.block = s.block ∧
      (s.Inv → t.block.bus = .closed) ∧ t.config = s.config ∧
      t.port.results = s.port.results ++ [.err .busOpenFailed] ∧
      t.port.asks = s.port.asks + 1 ∧ t.port.transmitScript = s.port.transmitScript

/-- After CONSTRUCT every channel reads 0 percent (70_reset_and_hazards.md, section 1). -/
def Obligations.FreshChannelsReadZero : Prop :=
  ∀ (p i : Int) (cfg : BusConfig) (s t : State), s.block.halt = none → s.block.life ≠ .ready →
    exec (.construct p cfg) s = .next t → t.block.life = .ready →
    0 ≤ i → i < t.block.channels → exec (.getChannel i) t = .next (t.reply (.value 0))

/-- SHOW (43_lifecycle.md R186): the L bytes of the buffer, ascending, are presented once on the
open bus; the attempt is logged with the transport's answer; nothing else of the block changes;
and the result is Ok or TransportFault by that answer. -/
def Obligations.ShowTransmitsTheWholeFrame : Prop :=
  ∀ (s : State) (cfg : BusConfig), s.Running → s.block.bus = .opened cfg →
    ∃ (t : State) (frame : List Byte), frame.length = s.block.frameLen ∧
      (∀ k, k < s.block.frameLen → frame[k]? = some (s.block.buf.read k)) ∧
      exec .showFrame s = .next t ∧
      t.block = { s.block with
        txlog := s.block.txlog ++ [⟨frame, (s.port.askTransmit cfg frame).1⟩] } ∧
      t.config = s.config ∧
      t.port = ((s.withPort (s.port.askTransmit cfg frame).2).reply
        (if (s.port.askTransmit cfg frame).1 = .ok then .ok else .err .transportFault)).port

/-- After a transport fault the block is still Ready with its buffer intact, and the next SHOW
presents the same frame again (43_lifecycle.md R187, 70_reset_and_hazards.md, section 3). -/
def Obligations.FaultedShowCanBeRetried : Prop :=
  ∀ (s : State) (cfg : BusConfig), s.Running → s.block.bus = .opened cfg →
    (s.port.askTransmit cfg s.block.frame).1 = .fault →
    ∃ t u ans, exec .showFrame s = .next t ∧ t.Running ∧
      t.port.results = s.port.results ++ [.err .transportFault] ∧ t.config = s.config ∧
      t.block = { s.block with txlog := s.block.txlog ++ [⟨s.block.frame, .fault⟩] } ∧
      exec .showFrame t = .next u ∧
      u.block.txlog = s.block.txlog ++ [⟨s.block.frame, .fault⟩, ⟨s.block.frame, ans⟩]

/-- DEINIT (43_lifecycle.md, section 3): the bus is closed, life is Released, the stop and the log
are kept, nothing is transmitted, and the result is Ok. That the discarded elements are held as
at power-on is the model's choice, log entry 4. -/
def Obligations.DeinitReleasesTheDriver : Prop :=
  ∀ s : State, s.Running →
    ∃ t, exec .deinit s = .next t ∧ t.block.bus = .closed ∧ t.block.life = .released ∧
      t.block.halt = none ∧ t.block.txlog = s.block.txlog ∧ t.block.NoDriver ∧
      t.config = s.config ∧ t.port = (s.reply .ok).port

/-- Reconstruction (43_lifecycle.md R185): DEINIT then CONSTRUCT builds the same driver from any two
machines with the same parameters and the same log, so nothing of the old buffer, registers or
geometry survives, and the log is kept. -/
def Obligations.ReconstructionForgetsTheOldDriver : Prop :=
  ∀ (p : Int) (cfg : BusConfig) (s s' t t' : State), s.Running → s'.Running →
    s.config = s'.config → s.block.txlog = s'.block.txlog →
    execAll [.deinit, .construct p cfg] s = .next t → t.block.life = .ready →
    execAll [.deinit, .construct p cfg] s' = .next t' → t'.block.life = .ready →
    t.block = t'.block ∧ t.block.txlog = s.block.txlog

/-- Use after release (43_lifecycle.md R189): after DEINIT every command except CONSTRUCT is the
fault UseAfterRelease, and then every later command returns that stop. -/
def Obligations.UseAfterReleaseStopsForGood : Prop :=
  ∀ (i j : Instr) (s : State), s.Running → i.tag ≠ 0x01#8 →
    ∃ t u v, exec .deinit s = .next t ∧ exec i t = .next u ∧
      u.block = t.block.withHalt (.fault .useAfterRelease) ∧
      u.port.results = t.port.results ++ [.stopped (.fault .useAfterRelease)] ∧
      exec j u = .next v ∧ v.block = u.block ∧
      v.port.results = u.port.results ++ [.stopped (.fault .useAfterRelease)]
end

