-- ==== Sys2Proof/Laws/State.lean ====
section
/-! SUPPORT. One lemma per field per update of the state records, so that no later proof unfolds a
record update. -/

namespace Sys2Proof.Machine

/-! Fields after `Block.withBuf`. -/

@[simp] theorem Block.withBuf_pixels (m : Memory) (b : Block) :
    (b.withBuf m).pixels = b.pixels := rfl
@[simp] theorem Block.withBuf_chips (m : Memory) (b : Block) : (b.withBuf m).chips = b.chips := rfl
@[simp] theorem Block.withBuf_channels (m : Memory) (b : Block) :
    (b.withBuf m).channels = b.channels := rfl
@[simp] theorem Block.withBuf_frameLen (m : Memory) (b : Block) :
    (b.withBuf m).frameLen = b.frameLen := rfl
@[simp] theorem Block.withBuf_lut (m : Memory) (b : Block) : (b.withBuf m).lut = b.lut := rfl
@[simp] theorem Block.withBuf_buf (m : Memory) (b : Block) : (b.withBuf m).buf = m := rfl
@[simp] theorem Block.withBuf_bcr (m : Memory) (b : Block) : (b.withBuf m).bcr = b.bcr := rfl
@[simp] theorem Block.withBuf_bcg (m : Memory) (b : Block) : (b.withBuf m).bcg = b.bcg := rfl
@[simp] theorem Block.withBuf_bcb (m : Memory) (b : Block) : (b.withBuf m).bcb = b.bcb := rfl
@[simp] theorem Block.withBuf_outtmg (m : Memory) (b : Block) :
    (b.withBuf m).outtmg = b.outtmg := rfl
@[simp] theorem Block.withBuf_extgck (m : Memory) (b : Block) :
    (b.withBuf m).extgck = b.extgck := rfl
@[simp] theorem Block.withBuf_tmgrst (m : Memory) (b : Block) :
    (b.withBuf m).tmgrst = b.tmgrst := rfl
@[simp] theorem Block.withBuf_dsprpt (m : Memory) (b : Block) :
    (b.withBuf m).dsprpt = b.dsprpt := rfl
@[simp] theorem Block.withBuf_blank (m : Memory) (b : Block) : (b.withBuf m).blank = b.blank := rfl
@[simp] theorem Block.withBuf_bus (m : Memory) (b : Block) : (b.withBuf m).bus = b.bus := rfl
@[simp] theorem Block.withBuf_life (m : Memory) (b : Block) : (b.withBuf m).life = b.life := rfl
@[simp] theorem Block.withBuf_halt (m : Memory) (b : Block) : (b.withBuf m).halt = b.halt := rfl
@[simp] theorem Block.withBuf_txlog (m : Memory) (b : Block) : (b.withBuf m).txlog = b.txlog := rfl

/-! Fields after `Block.withHalt`. -/

@[simp] theorem Block.withHalt_pixels (x : Stop) (b : Block) :
    (b.withHalt x).pixels = b.pixels := rfl
@[simp] theorem Block.withHalt_chips (x : Stop) (b : Block) : (b.withHalt x).chips = b.chips := rfl
@[simp] theorem Block.withHalt_channels (x : Stop) (b : Block) :
    (b.withHalt x).channels = b.channels := rfl
@[simp] theorem Block.withHalt_frameLen (x : Stop) (b : Block) :
    (b.withHalt x).frameLen = b.frameLen := rfl
@[simp] theorem Block.withHalt_lut (x : Stop) (b : Block) : (b.withHalt x).lut = b.lut := rfl
@[simp] theorem Block.withHalt_buf (x : Stop) (b : Block) : (b.withHalt x).buf = b.buf := rfl
@[simp] theorem Block.withHalt_bcr (x : Stop) (b : Block) : (b.withHalt x).bcr = b.bcr := rfl
@[simp] theorem Block.withHalt_bcg (x : Stop) (b : Block) : (b.withHalt x).bcg = b.bcg := rfl
@[simp] theorem Block.withHalt_bcb (x : Stop) (b : Block) : (b.withHalt x).bcb = b.bcb := rfl
@[simp] theorem Block.withHalt_outtmg (x : Stop) (b : Block) :
    (b.withHalt x).outtmg = b.outtmg := rfl
@[simp] theorem Block.withHalt_extgck (x : Stop) (b : Block) :
    (b.withHalt x).extgck = b.extgck := rfl
@[simp] theorem Block.withHalt_tmgrst (x : Stop) (b : Block) :
    (b.withHalt x).tmgrst = b.tmgrst := rfl
@[simp] theorem Block.withHalt_dsprpt (x : Stop) (b : Block) :
    (b.withHalt x).dsprpt = b.dsprpt := rfl
@[simp] theorem Block.withHalt_blank (x : Stop) (b : Block) : (b.withHalt x).blank = b.blank := rfl
@[simp] theorem Block.withHalt_bus (x : Stop) (b : Block) : (b.withHalt x).bus = b.bus := rfl
@[simp] theorem Block.withHalt_life (x : Stop) (b : Block) : (b.withHalt x).life = b.life := rfl
@[simp] theorem Block.withHalt_halt (x : Stop) (b : Block) : (b.withHalt x).halt = some x := rfl
@[simp] theorem Block.withHalt_txlog (x : Stop) (b : Block) : (b.withHalt x).txlog = b.txlog := rfl

/-! Fields after `Block.logTransmission`. -/

@[simp] theorem Block.logTransmission_pixels (x : Transmission) (b : Block) :
    (b.logTransmission x).pixels = b.pixels := rfl
@[simp] theorem Block.logTransmission_chips (x : Transmission) (b : Block) :
    (b.logTransmission x).chips = b.chips := rfl
@[simp] theorem Block.logTransmission_channels (x : Transmission) (b : Block) :
    (b.logTransmission x).channels = b.channels := rfl
@[simp] theorem Block.logTransmission_frameLen (x : Transmission) (b : Block) :
    (b.logTransmission x).frameLen = b.frameLen := rfl
@[simp] theorem Block.logTransmission_lut (x : Transmission) (b : Block) :
    (b.logTransmission x).lut = b.lut := rfl
@[simp] theorem Block.logTransmission_buf (x : Transmission) (b : Block) :
    (b.logTransmission x).buf = b.buf := rfl
@[simp] theorem Block.logTransmission_bcr (x : Transmission) (b : Block) :
    (b.logTransmission x).bcr = b.bcr := rfl
@[simp] theorem Block.logTransmission_bcg (x : Transmission) (b : Block) :
    (b.logTransmission x).bcg = b.bcg := rfl
@[simp] theorem Block.logTransmission_bcb (x : Transmission) (b : Block) :
    (b.logTransmission x).bcb = b.bcb := rfl
@[simp] theorem Block.logTransmission_outtmg (x : Transmission) (b : Block) :
    (b.logTransmission x).outtmg = b.outtmg := rfl
@[simp] theorem Block.logTransmission_extgck (x : Transmission) (b : Block) :
    (b.logTransmission x).extgck = b.extgck := rfl
@[simp] theorem Block.logTransmission_tmgrst (x : Transmission) (b : Block) :
    (b.logTransmission x).tmgrst = b.tmgrst := rfl
@[simp] theorem Block.logTransmission_dsprpt (x : Transmission) (b : Block) :
    (b.logTransmission x).dsprpt = b.dsprpt := rfl
@[simp] theorem Block.logTransmission_blank (x : Transmission) (b : Block) :
    (b.logTransmission x).blank = b.blank := rfl
@[simp] theorem Block.logTransmission_bus (x : Transmission) (b : Block) :
    (b.logTransmission x).bus = b.bus := rfl
@[simp] theorem Block.logTransmission_life (x : Transmission) (b : Block) :
    (b.logTransmission x).life = b.life := rfl
@[simp] theorem Block.logTransmission_halt (x : Transmission) (b : Block) :
    (b.logTransmission x).halt = b.halt := rfl
@[simp] theorem Block.logTransmission_txlog (x : Transmission) (b : Block) :
    (b.logTransmission x).txlog = b.txlog ++ [x] := rfl

/-! Fields after `Block.withBrightness`. -/

@[simp] theorem Block.withBrightness_pixels (x y z : Brightness) (b : Block) :
    (b.withBrightness x y z).pixels = b.pixels := rfl
@[simp] theorem Block.withBrightness_chips (x y z : Brightness) (b : Block) :
    (b.withBrightness x y z).chips = b.chips := rfl
@[simp] theorem Block.withBrightness_channels (x y z : Brightness) (b : Block) :
    (b.withBrightness x y z).channels = b.channels := rfl
@[simp] theorem Block.withBrightness_frameLen (x y z : Brightness) (b : Block) :
    (b.withBrightness x y z).frameLen = b.frameLen := rfl
@[simp] theorem Block.withBrightness_lut (x y z : Brightness) (b : Block) :
    (b.withBrightness x y z).lut = b.lut := rfl
@[simp] theorem Block.withBrightness_buf (x y z : Brightness) (b : Block) :
    (b.withBrightness x y z).buf = b.buf := rfl
@[simp] theorem Block.withBrightness_bcr (x y z : Brightness) (b : Block) :
    (b.withBrightness x y z).bcr = x := rfl
@[simp] theorem Block.withBrightness_bcg (x y z : Brightness) (b : Block) :
    (b.withBrightness x y z).bcg = y := rfl
@[simp] theorem Block.withBrightness_bcb (x y z : Brightness) (b : Block) :
    (b.withBrightness x y z).bcb = z := rfl
@[simp] theorem Block.withBrightness_outtmg (x y z : Brightness) (b : Block) :
    (b.withBrightness x y z).outtmg = b.outtmg := rfl
@[simp] theorem Block.withBrightness_extgck (x y z : Brightness) (b : Block) :
    (b.withBrightness x y z).extgck = b.extgck := rfl
@[simp] theorem Block.withBrightness_tmgrst (x y z : Brightness) (b : Block) :
    (b.withBrightness x y z).tmgrst = b.tmgrst := rfl
@[simp] theorem Block.withBrightness_dsprpt (x y z : Brightness) (b : Block) :
    (b.withBrightness x y z).dsprpt = b.dsprpt := rfl
@[simp] theorem Block.withBrightness_blank (x y z : Brightness) (b : Block) :
    (b.withBrightness x y z).blank = b.blank := rfl
@[simp] theorem Block.withBrightness_bus (x y z : Brightness) (b : Block) :
    (b.withBrightness x y z).bus = b.bus := rfl
@[simp] theorem Block.withBrightness_life (x y z : Brightness) (b : Block) :
    (b.withBrightness x y z).life = b.life := rfl
@[simp] theorem Block.withBrightness_halt (x y z : Brightness) (b : Block) :
    (b.withBrightness x y z).halt = b.halt := rfl
@[simp] theorem Block.withBrightness_txlog (x y z : Brightness) (b : Block) :
    (b.withBrightness x y z).txlog = b.txlog := rfl

/-! Fields after `Block.withFunctionControl`. -/

@[simp] theorem Block.withFunctionControl_pixels (x y z u v : Bool) (b : Block) :
    (b.withFunctionControl x y z u v).pixels = b.pixels := rfl
@[simp] theorem Block.withFunctionControl_chips (x y z u v : Bool) (b : Block) :
    (b.withFunctionControl x y z u v).chips = b.chips := rfl
@[simp] theorem Block.withFunctionControl_channels (x y z u v : Bool) (b : Block) :
    (b.withFunctionControl x y z u v).channels = b.channels := rfl
@[simp] theorem Block.withFunctionControl_frameLen (x y z u v : Bool) (b : Block) :
    (b.withFunctionControl x y z u v).frameLen = b.frameLen := rfl
@[simp] theorem Block.withFunctionControl_lut (x y z u v : Bool) (b : Block) :
    (b.withFunctionControl x y z u v).lut = b.lut := rfl
@[simp] theorem Block.withFunctionControl_buf (x y z u v : Bool) (b : Block) :
    (b.withFunctionControl x y z u v).buf = b.buf := rfl
@[simp] theorem Block.withFunctionControl_bcr (x y z u v : Bool) (b : Block) :
    (b.withFunctionControl x y z u v).bcr = b.bcr := rfl
@[simp] theorem Block.withFunctionControl_bcg (x y z u v : Bool) (b : Block) :
    (b.withFunctionControl x y z u v).bcg = b.bcg := rfl
@[simp] theorem Block.withFunctionControl_bcb (x y z u v : Bool) (b : Block) :
    (b.withFunctionControl x y z u v).bcb = b.bcb := rfl
@[simp] theorem Block.withFunctionControl_outtmg (x y z u v : Bool) (b : Block) :
    (b.withFunctionControl x y z u v).outtmg = x := rfl
@[simp] theorem Block.withFunctionControl_extgck (x y z u v : Bool) (b : Block) :
    (b.withFunctionControl x y z u v).extgck = y := rfl
@[simp] theorem Block.withFunctionControl_tmgrst (x y z u v : Bool) (b : Block) :
    (b.withFunctionControl x y z u v).tmgrst = z := rfl
@[simp] theorem Block.withFunctionControl_dsprpt (x y z u v : Bool) (b : Block) :
    (b.withFunctionControl x y z u v).dsprpt = u := rfl
@[simp] theorem Block.withFunctionControl_blank (x y z u v : Bool) (b : Block) :
    (b.withFunctionControl x y z u v).blank = v := rfl
@[simp] theorem Block.withFunctionControl_bus (x y z u v : Bool) (b : Block) :
    (b.withFunctionControl x y z u v).bus = b.bus := rfl
@[simp] theorem Block.withFunctionControl_life (x y z u v : Bool) (b : Block) :
    (b.withFunctionControl x y z u v).life = b.life := rfl
@[simp] theorem Block.withFunctionControl_halt (x y z u v : Bool) (b : Block) :
    (b.withFunctionControl x y z u v).halt = b.halt := rfl
@[simp] theorem Block.withFunctionControl_txlog (x y z u v : Bool) (b : Block) :
    (b.withFunctionControl x y z u v).txlog = b.txlog := rfl

/-! Fields after `Block.afterDeinit`. -/

@[simp] theorem Block.afterDeinit_pixels (b : Block) :
    (b.afterDeinit).pixels = Block.powerOn.pixels := rfl
@[simp] theorem Block.afterDeinit_chips (b : Block) :
    (b.afterDeinit).chips = Block.powerOn.chips := rfl
@[simp] theorem Block.afterDeinit_channels (b : Block) :
    (b.afterDeinit).channels = Block.powerOn.channels := rfl
@[simp] theorem Block.afterDeinit_frameLen (b : Block) :
    (b.afterDeinit).frameLen = Block.powerOn.frameLen := rfl
@[simp] theorem Block.afterDeinit_lut (b : Block) : (b.afterDeinit).lut = Block.powerOn.lut := rfl
@[simp] theorem Block.afterDeinit_buf (b : Block) : (b.afterDeinit).buf = Block.powerOn.buf := rfl
@[simp] theorem Block.afterDeinit_bcr (b : Block) : (b.afterDeinit).bcr = Block.powerOn.bcr := rfl
@[simp] theorem Block.afterDeinit_bcg (b : Block) : (b.afterDeinit).bcg = Block.powerOn.bcg := rfl
@[simp] theorem Block.afterDeinit_bcb (b : Block) : (b.afterDeinit).bcb = Block.powerOn.bcb := rfl
@[simp] theorem Block.afterDeinit_outtmg (b : Block) :
    (b.afterDeinit).outtmg = Block.powerOn.outtmg := rfl
@[simp] theorem Block.afterDeinit_extgck (b : Block) :
    (b.afterDeinit).extgck = Block.powerOn.extgck := rfl
@[simp] theorem Block.afterDeinit_tmgrst (b : Block) :
    (b.afterDeinit).tmgrst = Block.powerOn.tmgrst := rfl
@[simp] theorem Block.afterDeinit_dsprpt (b : Block) :
    (b.afterDeinit).dsprpt = Block.powerOn.dsprpt := rfl
@[simp] theorem Block.afterDeinit_blank (b : Block) :
    (b.afterDeinit).blank = Block.powerOn.blank := rfl
@[simp] theorem Block.afterDeinit_bus (b : Block) : (b.afterDeinit).bus = Block.powerOn.bus := rfl
@[simp] theorem Block.afterDeinit_life (b : Block) : (b.afterDeinit).life = .released := rfl
@[simp] theorem Block.afterDeinit_halt (b : Block) : (b.afterDeinit).halt = b.halt := rfl
@[simp] theorem Block.afterDeinit_txlog (b : Block) : (b.afterDeinit).txlog = b.txlog := rfl

/-! Fields after `Block.fresh`. -/

@[simp] theorem Block.fresh_pixels (cfg : Config) (n : Nat) (bus : BusConfig) (b : Block) :
    (Block.fresh cfg n bus b).pixels = n := rfl
@[simp] theorem Block.fresh_chips (cfg : Config) (n : Nat) (bus : BusConfig) (b : Block) :
    (Block.fresh cfg n bus b).chips = chipCount n := rfl
@[simp] theorem Block.fresh_channels (cfg : Config) (n : Nat) (bus : BusConfig) (b : Block) :
    (Block.fresh cfg n bus b).channels = channelCount n := rfl
@[simp] theorem Block.fresh_frameLen (cfg : Config) (n : Nat) (bus : BusConfig) (b : Block) :
    (Block.fresh cfg n bus b).frameLen = frameLength n := rfl
@[simp] theorem Block.fresh_lut (cfg : Config) (n : Nat) (bus : BusConfig) (b : Block) :
    (Block.fresh cfg n bus b).lut = lookupTable (channelCount n) := rfl
@[simp] theorem Block.fresh_buf (cfg : Config) (n : Nat) (bus : BusConfig) (b : Block) :
    (Block.fresh cfg n bus b).buf = [] := rfl
@[simp] theorem Block.fresh_bcr (cfg : Config) (n : Nat) (bus : BusConfig) (b : Block) :
    (Block.fresh cfg n bus b).bcr = cfg.bcrDefault := rfl
@[simp] theorem Block.fresh_bcg (cfg : Config) (n : Nat) (bus : BusConfig) (b : Block) :
    (Block.fresh cfg n bus b).bcg = cfg.bcgDefault := rfl
@[simp] theorem Block.fresh_bcb (cfg : Config) (n : Nat) (bus : BusConfig) (b : Block) :
    (Block.fresh cfg n bus b).bcb = cfg.bcbDefault := rfl
@[simp] theorem Block.fresh_outtmg (cfg : Config) (n : Nat) (bus : BusConfig) (b : Block) :
    (Block.fresh cfg n bus b).outtmg = true := rfl
@[simp] theorem Block.fresh_extgck (cfg : Config) (n : Nat) (bus : BusConfig) (b : Block) :
    (Block.fresh cfg n bus b).extgck = false := rfl
@[simp] theorem Block.fresh_tmgrst (cfg : Config) (n : Nat) (bus : BusConfig) (b : Block) :
    (Block.fresh cfg n bus b).tmgrst = true := rfl
@[simp] theorem Block.fresh_dsprpt (cfg : Config) (n : Nat) (bus : BusConfig) (b : Block) :
    (Block.fresh cfg n bus b).dsprpt = true := rfl
@[simp] theorem Block.fresh_blank (cfg : Config) (n : Nat) (bus : BusConfig) (b : Block) :
    (Block.fresh cfg n bus b).blank = false := rfl
@[simp] theorem Block.fresh_bus (cfg : Config) (n : Nat) (bus : BusConfig) (b : Block) :
    (Block.fresh cfg n bus b).bus = .opened bus := rfl
@[simp] theorem Block.fresh_life (cfg : Config) (n : Nat) (bus : BusConfig) (b : Block) :
    (Block.fresh cfg n bus b).life = .ready := rfl
@[simp] theorem Block.fresh_halt (cfg : Config) (n : Nat) (bus : BusConfig) (b : Block) :
    (Block.fresh cfg n bus b).halt = b.halt := rfl
@[simp] theorem Block.fresh_txlog (cfg : Config) (n : Nat) (bus : BusConfig) (b : Block) :
    (Block.fresh cfg n bus b).txlog = b.txlog := rfl

/-! Fields after `State.withBlock`. -/

@[simp] theorem State.withBlock_block (b : Block) (s : State) : (s.withBlock b).block = b := rfl
@[simp] theorem State.withBlock_config (b : Block) (s : State) :
    (s.withBlock b).config = s.config := rfl
@[simp] theorem State.withBlock_port (b : Block) (s : State) : (s.withBlock b).port = s.port := rfl

/-! Fields after `State.withPort`. -/

@[simp] theorem State.withPort_block (p : Port) (s : State) : (s.withPort p).block = s.block := rfl
@[simp] theorem State.withPort_config (p : Port) (s : State) :
    (s.withPort p).config = s.config := rfl
@[simp] theorem State.withPort_port (p : Port) (s : State) : (s.withPort p).port = p := rfl

/-! Fields after `State.withPending`. -/

@[simp] theorem State.withPending_block (rs : List Record) (s : State) :
    (s.withPending rs).block = s.block := rfl
@[simp] theorem State.withPending_config (rs : List Record) (s : State) :
    (s.withPending rs).config = s.config := rfl
@[simp] theorem State.withPending_port (rs : List Record) (s : State) :
    (s.withPending rs).port = { s.port with pending := rs } := rfl

/-! Fields after `State.reply`. -/

@[simp] theorem State.reply_block (r : Result) (s : State) : (s.reply r).block = s.block := rfl
@[simp] theorem State.reply_config (r : Result) (s : State) : (s.reply r).config = s.config := rfl
@[simp] theorem State.reply_port (r : Result) (s : State) :
    (s.reply r).port = { s.port with results := s.port.results ++ [r] } := rfl

end Sys2Proof.Machine
end

