-- ==== Sys2Proof/Laws/Memory.lean ====
section
/-! SUPPORT. The laws of the frame buffer: read after write, the canonical form kept by every write,
its uniqueness, and the big-endian accesses. -/

namespace Sys2Proof.Machine

@[simp] theorem Memory.read_nil (a : Nat) : Memory.read [] a = Memory.unlisted := rfl

theorem Memory.wf_nil : Memory.wf [] := by simp [Memory.wf]

/-- The buffer after reset is canonical. -/
theorem State.reset_buf_wf : State.reset.block.buf.wf := Memory.wf_nil

theorem Memory.wf_cons {c : Host.Cell} {m : Memory} :
    Memory.wf (c :: m) ↔
      (∀ d ∈ m, c.1 < d.1) ∧ c.2 ≠ Memory.unlisted ∧ Memory.wf m := by
  simp only [Memory.wf, List.pairwise_cons, List.forall_mem_cons]
  tauto

/-- An offset before every listed one reads as unlisted. -/
theorem Memory.read_of_lt {m : Memory} {a : Nat} (h : ∀ c ∈ m, a < c.1) :
    Memory.read m a = Memory.unlisted := by
  induction m with
  | nil => rfl
  | cons c m ih =>
    have hc := h c (by simp)
    simp only [Memory.read, Nat.ne_of_lt hc, if_false]
    exact ih fun d hd => h d (by simp [hd])

theorem Memory.read_write_ne (m : Memory) {a x : Nat} (v : Byte) (h : x ≠ a) :
    (m.write a v).read x = m.read x := by
  induction m with
  | nil =>
    simp only [Memory.write]
    split <;> simp [Memory.read, h]
  | cons c m ih =>
    obtain ⟨a', v'⟩ := c
    simp only [Memory.write]
    split_ifs with h1 h2 h3 h4 <;> simp_all [Memory.read]

theorem Memory.read_write_eq {m : Memory} (hm : m.wf) (a : Nat) (v : Byte) :
    (m.write a v).read a = v := by
  induction m with
  | nil =>
    simp only [Memory.write]
    split <;> simp_all [Memory.read]
  | cons c m ih =>
    obtain ⟨a', v'⟩ := c
    obtain ⟨h1, -, h3⟩ := Memory.wf_cons.mp hm
    simp only [Memory.write]
    split_ifs with hlt hv heq hv
    · subst hv
      refine Memory.read_of_lt fun d hd => ?_
      rcases List.mem_cons.mp hd with rfl | hd
      · exact hlt
      · exact Nat.lt_trans hlt (h1 d hd)
    · simp [Memory.read]
    · subst hv heq
      exact Memory.read_of_lt h1
    · simp [Memory.read]
    · simp [Memory.read, heq, ih h3]

theorem Memory.read_write {m : Memory} (hm : m.wf) (a x : Nat) (v : Byte) :
    (m.write a v).read x = if x = a then v else m.read x := by
  split
  · next h => rw [h, Memory.read_write_eq hm]
  · next h => exact Memory.read_write_ne m v h

/-- A write lists no offset but its own and those listed before. -/
theorem Memory.mem_write {m : Memory} {a : Nat} {v : Byte} {c : Host.Cell} (h : c ∈ m.write a v) :
    c.1 = a ∨ c ∈ m := by
  induction m with
  | nil =>
    simp only [Memory.write] at h
    split at h <;> simp_all
  | cons d m ih =>
    obtain ⟨a', v'⟩ := d
    simp only [Memory.write] at h
    split_ifs at h <;> simp only [List.mem_cons] at h ⊢
    · exact .inr h
    · rcases h with rfl | h | h <;> simp_all
    · exact .inr (.inr h)
    · rcases h with rfl | h <;> simp_all
    · rcases h with rfl | h
      · simp
      · rcases ih h with h | h <;> simp [h]

theorem Memory.wf_write {m : Memory} (hm : m.wf) (a : Nat) (v : Byte) : (m.write a v).wf := by
  induction m with
  | nil =>
    simp only [Memory.write]
    split
    · exact Memory.wf_nil
    · next h => simp [Memory.wf, h]
  | cons c m ih =>
    obtain ⟨a', v'⟩ := c
    obtain ⟨h1, h2, h3⟩ := Memory.wf_cons.mp hm
    simp only [Memory.write]
    split_ifs with hlt hv heq hv
    · exact hm
    · refine Memory.wf_cons.mpr ⟨fun d hd => ?_, hv, hm⟩
      rcases List.mem_cons.mp hd with rfl | hd
      · exact hlt
      · exact Nat.lt_trans hlt (h1 d hd)
    · exact h3
    · subst heq
      exact Memory.wf_cons.mpr ⟨h1, hv, h3⟩
    · refine Memory.wf_cons.mpr ⟨fun d hd => ?_, h2, ih h3⟩
      rcases Memory.mem_write hd with hd | hd
      · rw [hd]; show a' < a; omega
      · exact h1 d hd

/-- A listed offset of a canonical buffer does not read as unlisted. -/
theorem Memory.read_mem {m : Memory} (hm : m.wf) {c : Host.Cell} (h : c ∈ m) :
    m.read c.1 = c.2 := by
  induction m with
  | nil => simp at h
  | cons d m ih =>
    obtain ⟨h1, -, h3⟩ := Memory.wf_cons.mp hm
    rcases List.mem_cons.mp h with rfl | h
    · simp [Memory.read]
    · simp [Memory.read, Nat.ne_of_gt (h1 c h), ih h3 h]

/-- Canonical buffers that read alike are equal. -/
theorem Memory.ext {m m' : Memory} (hm : m.wf) (hm' : m'.wf) (h : ∀ a, m.read a = m'.read a) :
    m = m' := by
  induction m generalizing m' with
  | nil =>
    cases m' with
    | nil => rfl
    | cons d m' =>
      have := h d.1
      rw [Memory.read_mem hm' (by simp)] at this
      exact absurd this.symm (Memory.wf_cons.mp hm').2.1
  | cons c m ih =>
    obtain ⟨c1, c2, c3⟩ := Memory.wf_cons.mp hm
    cases m' with
    | nil =>
      have := h c.1
      rw [Memory.read_mem hm (by simp)] at this
      exact absurd this c2
    | cons d m' =>
      obtain ⟨d1, d2, d3⟩ := Memory.wf_cons.mp hm'
      have hlt : ∀ {x y : Host.Cell} {n n' : Memory}, Memory.wf (x :: n) → Memory.wf (y :: n') →
          (∀ a, Memory.read (x :: n) a = Memory.read (y :: n') a) → ¬ x.1 < y.1 := by
        intro x y n n' hx hy hr hxy
        have := hr x.1
        rw [Memory.read_mem hx (by simp), Memory.read_of_lt (m := y :: n')] at this
        · exact (Memory.wf_cons.mp hx).2.1 this
        · intro e he
          rcases List.mem_cons.mp he with rfl | he
          · exact hxy
          · exact Nat.lt_trans hxy ((Memory.wf_cons.mp hy).1 e he)
      have e1 : c.1 = d.1 := by
        have := hlt hm hm' h
        have := hlt hm' hm (fun a => (h a).symm)
        omega
      have e2 : c.2 = d.2 := by
        have := h c.1
        rw [Memory.read_mem hm (by simp), e1, Memory.read_mem hm' (by simp)] at this
        exact this
      have e3 : m = m' := by
        refine ih c3 d3 fun a => ?_
        have ha := h a
        obtain ⟨x, v⟩ := c
        obtain ⟨y, w⟩ := d
        simp only at e1 e2
        subst e1 e2
        by_cases hax : a = x
        · subst hax
          rw [Memory.read_of_lt c1, Memory.read_of_lt d1]
        · simpa [Memory.read, hax] using ha
      rw [e3, show c = d from Prod.ext e1 e2]

/-! ### The 16-bit and 32-bit accesses -/

theorem Memory.wf_write16 {m : Memory} (hm : m.wf) (o : Nat) (v : Slot) : (m.write16 o v).wf :=
  Memory.wf_write (Memory.wf_write hm _ _) _ _

theorem Memory.wf_write32 {m : Memory} (hm : m.wf) (o : Nat) (v : Word) : (m.write32 o v).wf :=
  Memory.wf_write (Memory.wf_write (Memory.wf_write (Memory.wf_write hm _ _) _ _) _ _) _ _

theorem Memory.read_write16 {m : Memory} (hm : m.wf) (o x : Nat) (v : Slot) :
    (m.write16 o v).read x =
      if x = o then v.extractLsb' 8 8 else if x = o + 1 then v.extractLsb' 0 8 else m.read x := by
  rw [Memory.write16, Memory.read_write (Memory.wf_write hm _ _), Memory.read_write hm]
  split_ifs <;> first | rfl | omega

theorem Memory.read_write32 {m : Memory} (hm : m.wf) (o x : Nat) (v : Word) :
    (m.write32 o v).read x =
      if x = o then v.extractLsb' 24 8 else if x = o + 1 then v.extractLsb' 16 8
      else if x = o + 2 then v.extractLsb' 8 8 else if x = o + 3 then v.extractLsb' 0 8
      else m.read x := by
  rw [Memory.write32, Memory.read_write (Memory.wf_write (Memory.wf_write (Memory.wf_write hm _ _)
    _ _) _ _), Memory.read_write (Memory.wf_write (Memory.wf_write hm _ _) _ _),
    Memory.read_write (Memory.wf_write hm _ _), Memory.read_write hm]
  split_ifs <;> first | rfl | omega

theorem Memory.read_write16_of_outside {m : Memory} {o x : Nat} {v : Slot}
    (h : x < o ∨ o + 2 ≤ x) : (m.write16 o v).read x = m.read x := by
  rw [Memory.write16, Memory.read_write_ne _ _ (by omega), Memory.read_write_ne _ _ (by omega)]

theorem Memory.read_write32_of_outside {m : Memory} {o x : Nat} {v : Word}
    (h : x < o ∨ o + 4 ≤ x) : (m.write32 o v).read x = m.read x := by
  rw [Memory.write32, Memory.read_write_ne _ _ (by omega), Memory.read_write_ne _ _ (by omega),
    Memory.read_write_ne _ _ (by omega), Memory.read_write_ne _ _ (by omega)]

theorem Memory.read16_congr {m m' : Memory} {o : Nat}
    (h : ∀ x, o ≤ x → x < o + 2 → m.read x = m'.read x) : m.read16 o = m'.read16 o := by
  simp only [Memory.read16]
  rw [h o (by omega) (by omega), h (o + 1) (by omega) (by omega)]

theorem Memory.read32_congr {m m' : Memory} {o : Nat}
    (h : ∀ x, o ≤ x → x < o + 4 → m.read x = m'.read x) : m.read32 o = m'.read32 o := by
  simp only [Memory.read32]
  rw [h o (by omega) (by omega), h (o + 1) (by omega) (by omega), h (o + 2) (by omega) (by omega),
    h (o + 3) (by omega) (by omega)]

/-- Bytes taken out of a 16-bit value and put together again. -/
theorem slot_of_bytes (v : Slot) : v.extractLsb' 8 8 ++ v.extractLsb' 0 8 = v := by
  apply BitVec.eq_of_getLsbD_eq
  intro i hi
  simp only [BitVec.getLsbD_append, BitVec.getLsbD_extractLsb']
  split
  · simp [*]
  · next h => simp only [show i - 8 < 8 by omega, show 8 + (i - 8) = i by omega]; simp

/-- Bytes taken out of a 32-bit value and put together again. -/
theorem word_of_bytes (v : Word) :
    v.extractLsb' 24 8 ++ v.extractLsb' 16 8 ++ v.extractLsb' 8 8 ++ v.extractLsb' 0 8 = v := by
  apply BitVec.eq_of_getLsbD_eq
  intro i hi
  simp only [BitVec.getLsbD_append, BitVec.getLsbD_extractLsb']
  split_ifs with h1 h2 h3
  · simp [h1]
  · simp only [h2, show 8 + (i - 8) = i by omega]; simp
  · simp only [h3, show 16 + (i - 8 - 8) = i by omega]; simp
  · simp only [show i - 8 - 8 - 8 < 8 by omega, show 24 + (i - 8 - 8 - 8) = i by omega]; simp

theorem Memory.read16_write16 {m : Memory} (hm : m.wf) (o : Nat) (v : Slot) :
    (m.write16 o v).read16 o = v := by
  simp only [Memory.read16, Memory.read_write16 hm]
  simp only [if_true, show ¬ o + 1 = o by omega, if_false]
  exact slot_of_bytes v

theorem Memory.read32_write32 {m : Memory} (hm : m.wf) (o : Nat) (v : Word) :
    (m.write32 o v).read32 o = v := by
  simp only [Memory.read32, Memory.read_write32 hm]
  simp only [if_true, show ¬ o + 1 = o by omega, show ¬ o + 2 = o by omega,
    show ¬ o + 3 = o by omega, show ¬ o + 2 = o + 1 by omega, show ¬ o + 3 = o + 1 by omega,
    show ¬ o + 3 = o + 2 by omega, if_false]
  exact word_of_bytes v

theorem Memory.read16_write16_of_disjoint {m : Memory} {o x : Nat} {v : Slot}
    (h : x + 2 ≤ o ∨ o + 2 ≤ x) : (m.write16 o v).read16 x = m.read16 x :=
  Memory.read16_congr fun _ _ _ => Memory.read_write16_of_outside (by omega)

theorem Memory.read32_write16_of_disjoint {m : Memory} {o x : Nat} {v : Slot}
    (h : x + 4 ≤ o ∨ o + 2 ≤ x) : (m.write16 o v).read32 x = m.read32 x :=
  Memory.read32_congr fun _ _ _ => Memory.read_write16_of_outside (by omega)

theorem Memory.read32_write32_of_disjoint {m : Memory} {o x : Nat} {v : Word}
    (h : x + 4 ≤ o ∨ o + 4 ≤ x) : (m.write32 o v).read32 x = m.read32 x :=
  Memory.read32_congr fun _ _ _ => Memory.read_write32_of_outside (by omega)

/-- A write inside `n` bytes lists no offset from `n` on. -/
theorem Memory.bound_write16 {m : Memory} {n o : Nat} {v : Slot} (hm : ∀ c ∈ m, c.1 < n)
    (ho : o + 2 ≤ n) : ∀ c ∈ m.write16 o v, c.1 < n := by
  intro c hc
  rcases Memory.mem_write hc with h | hc
  · omega
  · rcases Memory.mem_write hc with h | hc
    · omega
    · exact hm c hc

/-- A write inside `n` bytes lists no offset from `n` on. -/
theorem Memory.bound_write32 {m : Memory} {n o : Nat} {v : Word} (hm : ∀ c ∈ m, c.1 < n)
    (ho : o + 4 ≤ n) : ∀ c ∈ m.write32 o v, c.1 < n := by
  intro c hc
  rcases Memory.mem_write hc with h | hc
  · omega
  rcases Memory.mem_write hc with h | hc
  · omega
  rcases Memory.mem_write hc with h | hc
  · omega
  rcases Memory.mem_write hc with h | hc
  · omega
  · exact hm c hc

/-- Writing a word back where it was read changes nothing. -/
theorem Memory.write32_read32 {m : Memory} (hm : m.wf) (o : Nat) :
    m.write32 o (m.read32 o) = m := by
  refine Memory.ext (Memory.wf_write32 hm _ _) hm fun x => ?_
  rw [Memory.read_write32 hm]
  have hb : ∀ (p q r s : Byte), (p ++ q ++ r ++ s : Word).extractLsb' 24 8 = p ∧
      (p ++ q ++ r ++ s : Word).extractLsb' 16 8 = q ∧
      (p ++ q ++ r ++ s : Word).extractLsb' 8 8 = r ∧
      (p ++ q ++ r ++ s : Word).extractLsb' 0 8 = s := by
    intro p q r s
    refine ⟨?_, ?_, ?_, ?_⟩ <;> apply BitVec.eq_of_getLsbD_eq <;> intro i hi <;>
      simp only [BitVec.getLsbD_append, BitVec.getLsbD_extractLsb', hi, decide_true, Bool.true_and]
      <;> split_ifs <;> first | omega | (congr 1; omega)
  split_ifs with h1 h2 h3 h4
  · subst h1; exact (hb _ _ _ _).1
  · subst h2; exact (hb _ _ _ _).2.1
  · subst h3; exact (hb _ _ _ _).2.2.1
  · subst h4; exact (hb _ _ _ _).2.2.2
  · rfl

@[simp] theorem Memory.bytes_length (m : Memory) (n : Nat) : (m.bytes n).length = n := by
  simp [Memory.bytes]

theorem Memory.bytes_getElem? (m : Memory) {n k : Nat} (h : k < n) :
    (m.bytes n)[k]? = some (m.read k) := by
  simp [Memory.bytes, h]

end Sys2Proof.Machine
end

