-- ==== Sys2Proof/Laws/Operands.lean ====
section
/-! SUPPORT. The laws of the operand conversions: masking, the codec's words bit by bit, the layout
formulas, and rounding half to even. -/

namespace Sys2Proof.Machine

theorem truncBits_lt (w : Nat) (v : Int) : truncBits w v < 2 ^ w := by
  have h : (0 : Int) < 2 ^ w := by positivity
  have h1 := Int.emod_nonneg v h.ne'
  have h2 := Int.emod_lt_of_pos v h
  have h3 : ((2 ^ w : Nat) : Int) = 2 ^ w := by push_cast; rfl
  unfold truncBits
  omega

theorem truncBits_cast (w : Nat) (v : Int) : (truncBits w v : Int) = v % 2 ^ w := by
  have h : (0 : Int) < 2 ^ w := by positivity
  exact Int.toNat_of_nonneg (Int.emod_nonneg v h.ne')

/-- A value that fits its width is not changed by masking. -/
theorem truncBits_natCast {w n : Nat} (h : n < 2 ^ w) : truncBits w (n : Int) = n := by
  have h1 := truncBits_cast w n
  rw [Int.emod_eq_of_lt (by omega) (by exact_mod_cast h)] at h1
  exact_mod_cast h1

theorem fieldMask_getLsbD (b w k : Nat) :
    (fieldMask b w).getLsbD k = (decide (k < 32) && decide (b ≤ k) && decide (k < b + w)) := by
  simp only [fieldMask, BitVec.getLsbD_ofNat, Nat.testBit_mul_two_pow, Nat.testBit_two_pow_sub_one]
  rcases Nat.lt_or_ge k b with h | h
  · simp [Nat.not_le.mpr h]
  · have : (k - b < w) ↔ k < b + w := by omega
    simp [h, this]

theorem insertField_getLsbD (word : Word) (b w : Nat) (v : Int) (k : Nat) :
    (insertField word b w v).getLsbD k =
      if b ≤ k ∧ k < b + w then decide (k < 32) && (truncBits w v).testBit (k - b)
      else word.getLsbD k := by
  have hw := truncBits_lt w v
  simp only [insertField, BitVec.getLsbD_or, BitVec.getLsbD_and, BitVec.getLsbD_not,
    fieldMask_getLsbD, BitVec.getLsbD_ofNat, Nat.testBit_mul_two_pow]
  split
  · next h => simp [h.1, h.2]
  · next h =>
    rcases Nat.lt_or_ge k 32 with hk | hk
    · rcases Nat.lt_or_ge k b with hb | hb
      · simp [hk, Nat.not_le.mpr hb]
      · have hkw : b + w ≤ k := by
          by_contra hc
          exact h ⟨hb, by omega⟩
        have h0 : (truncBits w v).testBit (k - b) = false :=
          Nat.testBit_lt_two_pow (Nat.lt_of_lt_of_le hw (Nat.pow_le_pow_right (by omega) (by omega)))
        simp [hk, h0, Nat.not_lt.mpr hkw]
    · rw [BitVec.getLsbD_of_ge word k hk]
      simp [Nat.not_lt.mpr hk]

/-- Bit `k` of an extracted field. -/
theorem extractField_testBit (word : Word) (b w k : Nat) :
    (extractField word b w).testBit k = (decide (k < w) && word.getLsbD (b + k)) := by
  simp only [extractField, Nat.testBit_mod_two_pow, Nat.testBit_div_two_pow, BitVec.getLsbD,
    Nat.add_comm k b]

/-- The field just inserted reads back as the value's low bits (40_bitfield.md R112). -/
theorem extractField_insertField (word : Word) {b w : Nat} (v : Int) (h : b + w ≤ 32) :
    extractField (insertField word b w v) b w = truncBits w v := by
  apply Nat.eq_of_testBit_eq
  intro k
  rw [extractField_testBit, insertField_getLsbD]
  rcases Nat.lt_or_ge k w with hk | hk
  · rw [if_pos ⟨by omega, by omega⟩]
    simp [hk, show b + k < 32 by omega]
  · rw [Nat.testBit_lt_two_pow (Nat.lt_of_lt_of_le (truncBits_lt w v)
      (Nat.pow_le_pow_right (by omega) hk))]
    simp [Nat.not_lt.mpr hk]

theorem insertField_zero_width (word : Word) (b : Nat) (v : Int) : insertField word b 0 v = word := by
  apply BitVec.eq_of_getLsbD_eq
  intro k _
  rw [insertField_getLsbD, if_neg (by omega)]

/-- Fields on disjoint bit ranges do not disturb each other (40_bitfield.md R112). -/
theorem insertField_comm (word : Word) {b w b' w' : Nat} (v v' : Int)
    (h : b + w ≤ b' ∨ b' + w' ≤ b) :
    insertField (insertField word b w v) b' w' v' =
      insertField (insertField word b' w' v') b w v := by
  apply BitVec.eq_of_getLsbD_eq
  intro k _
  simp only [insertField_getLsbD]
  split_ifs <;> first | rfl | omega

theorem insertField_idem (word : Word) (b w : Nat) (v : Int) :
    insertField (insertField word b w v) b w v = insertField word b w v := by
  apply BitVec.eq_of_getLsbD_eq
  intro k _
  simp only [insertField_getLsbD]
  split_ifs <;> rfl

/-! ### Layout -/

theorem channelOffset_bounds (j : Nat) :
    28 * (j / 12) + 4 ≤ channelOffset j ∧ channelOffset j + 2 ≤ 28 * (j / 12) + 28 := by
  unfold channelOffset; omega

theorem channelOffset_injective {j k : Nat} (h : channelOffset j = channelOffset k) : j = k := by
  unfold channelOffset at h; omega

/-- The slots of two channels do not overlap. -/
theorem channelOffset_disjoint {j k : Nat} (h : j ≠ k) :
    channelOffset j + 2 ≤ channelOffset k ∨ channelOffset k + 2 ≤ channelOffset j := by
  unfold channelOffset; omega

/-- No slot overlaps a header. -/
theorem headerOffset_disjoint (c j : Nat) :
    headerOffset c + 4 ≤ channelOffset j ∨ channelOffset j + 2 ≤ headerOffset c := by
  unfold headerOffset channelOffset; omega

theorem channelOffset_lt {j c : Nat} (h : j < 12 * c) : channelOffset j + 2 ≤ 28 * c := by
  unfold channelOffset; omega

theorem lookupTable_getElem? {n j : Nat} (h : j < n) :
    (lookupTable n)[j]? = some (channelOffset j) := by
  simp [lookupTable, h]

/-! ### Rounding -/

/-- The three ways RoundHE goes, over numerator and denominator. -/
theorem roundHE_cases (q : Rat) :
    (2 * (q.num % q.den) < q.den ∧ roundHE q = q.num / q.den) ∨
    ((q.den : Int) < 2 * (q.num % q.den) ∧ roundHE q = q.num / q.den + 1) ∨
    (2 * (q.num % q.den) = q.den ∧ roundHE q % 2 = 0 ∧
      (roundHE q = q.num / q.den ∨ roundHE q = q.num / q.den + 1)) := by
  simp only [roundHE]
  split_ifs with h1 h2 h3
  · exact .inl ⟨h1, rfl⟩
  · exact .inr (.inl ⟨h2, rfl⟩)
  · exact .inr (.inr ⟨by omega, h3, .inl rfl⟩)
  · exact .inr (.inr ⟨by omega, by omega, .inr rfl⟩)

/-- RoundHE by its distance: within one half, and even when exactly one half away. -/
theorem roundHE_spec (q : Rat) :
    |q - roundHE q| ≤ 1 / 2 ∧ (|q - roundHE q| = 1 / 2 → roundHE q % 2 = 0) := by
  have hd : (0 : Rat) < q.den := by exact_mod_cast q.den_pos
  have hq : q * q.den = q.num := Rat.mul_den_eq_num q
  have hdiv : (q.num : Rat) = q.den * (q.num / q.den : Int) + (q.num % q.den : Int) := by
    exact_mod_cast (Int.mul_ediv_add_emod q.num q.den).symm
  have hr0 : 0 ≤ q.num % q.den := Int.emod_nonneg _ (by exact_mod_cast q.den_nz)
  have hr1 : q.num % q.den < q.den := Int.emod_lt_of_pos _ (by exact_mod_cast q.den_pos)
  have key : (q - (q.num / q.den : Int)) * q.den = (q.num % q.den : Int) := by
    rw [sub_mul, hq, hdiv]; ring
  have hr0' : (0 : Rat) ≤ (q.num % q.den : Int) := by exact_mod_cast hr0
  have hr1' : ((q.num % q.den : Int) : Rat) < q.den := by exact_mod_cast hr1
  generalize hf : q.num / (q.den : Int) = f at *
  generalize hr : q.num % (q.den : Int) = r at *
  rcases roundHE_cases q with ⟨h, e⟩ | ⟨h, e⟩ | ⟨h, ev, e⟩
  · rw [hr] at h
    rw [hf] at e
    have h' : 2 * (r : Rat) < q.den := by exact_mod_cast h
    have hlt : q - f < 1 / 2 := by nlinarith
    have hge : 0 ≤ q - f := by nlinarith
    rw [e, abs_of_nonneg hge]
    exact ⟨hlt.le, fun h => absurd h hlt.ne⟩
  · rw [hr] at h
    rw [hf] at e
    have h' : (q.den : Rat) < 2 * (r : Rat) := by exact_mod_cast h
    have hgt : 1 / 2 < q - f := by nlinarith
    have hlt : q - f < 1 := by nlinarith
    rw [e]
    push_cast
    rw [show q - ((f : Rat) + 1) = -(1 - (q - f)) by ring, abs_neg, abs_of_pos (by linarith)]
    exact ⟨by linarith, fun h => by linarith⟩
  · refine ⟨?_, fun _ => ev⟩
    rw [hr] at h
    have h' : 2 * (r : Rat) = q.den := by exact_mod_cast h
    have hhalf : q - f = 1 / 2 := by
      have : (q - f - 1 / 2) * q.den = 0 := by linarith
      rcases mul_eq_zero.mp this with h | h
      · linarith
      · linarith
    rcases e with e | e <;> rw [hf] at e <;> rw [e]
    · rw [hhalf]; norm_num
    · push_cast
      rw [show q - ((f : Rat) + 1) = -(1 / 2) by linarith]; norm_num

/-- An integer within one half of `q`, strictly, is what RoundHE gives. -/
theorem roundHE_eq_of_near {q : Rat} {n : Int} (h : |q - n| < 1 / 2) : roundHE q = n := by
  have h1 := (abs_le.mp (roundHE_spec q).1)
  have h2 := abs_lt.mp h
  have h3 : ((roundHE q - n : Int) : Rat) < 1 := by push_cast; linarith
  have h4 : (-1 : Rat) < ((roundHE q - n : Int) : Rat) := by push_cast; linarith
  have h5 : roundHE q - n < 1 := by exact_mod_cast h3
  have h6 : -1 < roundHE q - n := by exact_mod_cast h4
  omega

theorem roundHE_intCast (n : Int) : roundHE (n : Rat) = n :=
  roundHE_eq_of_near (by simp)

/-- RoundHE is monotone. -/
theorem roundHE_mono {q q' : Rat} (h : q ≤ q') : roundHE q ≤ roundHE q' := by
  by_contra hc
  have hc' : roundHE q' + 1 ≤ roundHE q := by omega
  have hc'' : (roundHE q' : Rat) + 1 ≤ roundHE q := by exact_mod_cast hc'
  have h1 := abs_le.mp (roundHE_spec q).1
  have h2 := abs_le.mp (roundHE_spec q').1
  have hq : q = q' := by linarith
  subst hq
  omega

end Sys2Proof.Machine
end

