-- ==== Sys2Proof/Laws/Ops.lean ====
section
/-! SUPPORT. What each shared operation can do, said once: the checks, the stops, the oracles, the
codec on the buffer, and the loops over chips and channels. -/

namespace Sys2Proof.Machine

/-! ### Updates of the buffer -/

@[simp] theorem Block.withBuf_withBuf (m m' : Memory) (b : Block) :
    (b.withBuf m).withBuf m' = b.withBuf m' := rfl

@[simp] theorem Block.withBuf_self (b : Block) : b.withBuf b.buf = b := rfl

@[simp] theorem State.withBlock_self (s : State) : s.withBlock s.block = s := rfl

@[simp] theorem State.withPort_self (s : State) : s.withPort s.port = s := rfl

@[simp] theorem State.withBlock_withBlock (b b' : Block) (s : State) :
    (s.withBlock b).withBlock b' = s.withBlock b' := rfl

/-! ### Checks and stops -/

theorem unlessStopped_some {s : State} {stop : Stop} (h : s.block.halt = some stop) (k : Outcome) :
    unlessStopped s k = .next (s.reply (.stopped stop)) := by
  simp [unlessStopped, h]

theorem unlessStopped_none {s : State} (h : s.block.halt = none) (k : Outcome) :
    unlessStopped s k = k := by
  simp [unlessStopped, h]

theorem commonChecks_some {s : State} {stop : Stop} (h : s.block.halt = some stop) (k : Outcome) :
    commonChecks s k = .next (s.reply (.stopped stop)) :=
  unlessStopped_some h _

theorem commonChecks_running {s : State} (h : s.Running) (k : Outcome) : commonChecks s k = k := by
  simp [commonChecks, unlessStopped, h.1, h.2]

theorem commonChecks_unconfigured {s : State} (h : s.block.halt = none)
    (hl : s.block.life = .unconfigured) (k : Outcome) :
    commonChecks s k = takeStop (.fault .notConfigured) s := by
  simp [commonChecks, unlessStopped, h, hl]

theorem commonChecks_released {s : State} (h : s.block.halt = none)
    (hl : s.block.life = .released) (k : Outcome) :
    commonChecks s k = takeStop (.fault .useAfterRelease) s := by
  simp [commonChecks, unlessStopped, h, hl]

/-- A stopped block's answer, or a stop taken: what the checks before a command can do. -/
def StopTaken (s t : State) : Prop :=
  (∃ stop, s.block.halt = some stop ∧ t = s.reply (.stopped stop)) ∨
  (s.block.halt = none ∧ ∃ stop, t = (s.withBlock (s.block.withHalt stop)).reply (.stopped stop))

theorem takeStop_next {s t : State} {stop : Stop} (hn : s.block.halt = none)
    (h : takeStop stop s = .next t) : StopTaken s t :=
  .inr ⟨hn, stop, by simpa [takeStop] using h.symm⟩

theorem unlessStopped_next {s t : State} {k : Outcome} (h : unlessStopped s k = .next t) :
    StopTaken s t ∨ (s.block.halt = none ∧ k = .next t) := by
  cases hs : s.block.halt with
  | some stop =>
    rw [unlessStopped_some hs] at h
    exact .inl (.inl ⟨stop, hs, by simpa using h.symm⟩)
  | none =>
    rw [unlessStopped_none hs] at h
    exact .inr ⟨rfl, h⟩

/-- Everything the common checks can do before a command gives a next state. -/
theorem commonChecks_next {s t : State} {k : Outcome} (h : commonChecks s k = .next t) :
    (StopTaken s t ∧ ¬ s.Running) ∨ (s.Running ∧ k = .next t) := by
  cases hs : s.block.halt with
  | some stop =>
    rw [commonChecks_some hs] at h
    exact .inl ⟨.inl ⟨stop, hs, by simpa using h.symm⟩, by simp [State.Running, hs]⟩
  | none =>
    cases hl : s.block.life with
    | unconfigured =>
      rw [commonChecks_unconfigured hs hl] at h
      exact .inl ⟨takeStop_next hs h, by simp [State.Running, hl]⟩
    | released =>
      rw [commonChecks_released hs hl] at h
      exact .inl ⟨takeStop_next hs h, by simp [State.Running, hl]⟩
    | ready =>
      rw [commonChecks_running ⟨hs, hl⟩] at h
      exact .inr ⟨⟨hs, hl⟩, h⟩

theorem commit_next {b : Except Fault Block} {r : Result} {s t : State}
    (h : commit b r s = .next t) : ∃ b', b = .ok b' ∧ t = (s.withBlock b').reply r := by
  cases b with
  | error f => simp [commit] at h
  | ok b' => exact ⟨b', rfl, by simpa [commit] using h.symm⟩

theorem commitValue_next {v : Except Fault Int} {s t : State} (h : commitValue v s = .next t) :
    ∃ n, v = .ok n ∧ t = s.reply (.value n) := by
  cases v with
  | error f => simp [commitValue] at h
  | ok n => exact ⟨n, rfl, by simpa [commitValue] using h.symm⟩

/-! ### Oracles -/

theorem Port.askBusOpen_snd (cfg : BusConfig) (p : Port) :
    (p.askBusOpen cfg).2 =
      { p with busOpenScript := p.busOpenScript.tail, asks := p.asks + 1 } := by
  unfold Port.askBusOpen; split <;> simp_all

theorem Port.askTransmit_snd (cfg : BusConfig) (bytes : List Byte) (p : Port) :
    (p.askTransmit cfg bytes).2 =
      { p with transmitScript := p.transmitScript.tail, asks := p.asks + 1 } := by
  unfold Port.askTransmit; split <;> simp_all

/-- The result that a transport's answer stands for (43_lifecycle.md R186). -/
def transmitResult (a : TransmitAnswer) : Result := if a = .ok then .ok else .err .transportFault

/-- Everything a transmission does on an open bus. -/
theorem emit_opened {s : State} {cfg : BusConfig} (h : s.block.bus = .opened cfg) :
    emit s = .next
      (((s.withPort (s.port.askTransmit cfg s.block.frame).2).withBlock (s.block.logTransmission
        ⟨s.block.frame, (s.port.askTransmit cfg s.block.frame).1⟩)).reply
          (transmitResult (s.port.askTransmit cfg s.block.frame).1)) := by
  simp only [emit, h]
  cases (s.port.askTransmit cfg s.block.frame).1 <;> simp [transmitResult]

theorem emit_next {s t : State} (h : emit s = .next t) :
    ∃ cfg, s.block.bus = .opened cfg ∧ t =
      ((s.withPort (s.port.askTransmit cfg s.block.frame).2).withBlock (s.block.logTransmission
        ⟨s.block.frame, (s.port.askTransmit cfg s.block.frame).1⟩)).reply
          (transmitResult (s.port.askTransmit cfg s.block.frame).1) := by
  cases hb : s.block.bus with
  | closed => simp [emit, hb] at h
  | opened cfg =>
    rw [emit_opened hb] at h
    exact ⟨cfg, rfl, by simpa using h.symm⟩

/-! ### The codec on the buffer -/

theorem memRead4_ok {b : Block} {o : Nat} (h : o + 4 ≤ b.frameLen) :
    b.memRead4 o = .ok (b.buf.read32 o) := by simp [Block.memRead4, h]

theorem memWrite4_ok {b : Block} {o : Nat} (h : o + 4 ≤ b.frameLen) (v : Word) :
    b.memWrite4 o v = .ok (b.withBuf (b.buf.write32 o v)) := by simp [Block.memWrite4, h]

theorem memWrite2_ok {b : Block} {o : Nat} (h : o + 2 ≤ b.frameLen) (v : Slot) :
    b.memWrite2 o v = .ok (b.withBuf (b.buf.write16 o v)) := by simp [Block.memWrite2, h]

theorem memRead2_ok {b : Block} {o : Nat} (h : o + 2 ≤ b.frameLen) :
    b.memRead2 o = .ok (b.buf.read16 o) := by simp [Block.memRead2, h]

theorem setFieldRaw_ok {blk : Block} {o : Nat} (h : o + 4 ≤ blk.frameLen) (b w : Nat) (v : Int) :
    setFieldRaw o b w v blk =
      .ok (blk.withBuf (blk.buf.write32 o (insertField (blk.buf.read32 o) b w v))) := by
  simp only [setFieldRaw, memRead4_ok h, bind, Except.bind]
  exact memWrite4_ok h _

theorem getFieldRaw_ok {blk : Block} {o : Nat} (h : o + 4 ≤ blk.frameLen) (b w : Nat) :
    getFieldRaw o b w blk = .ok (extractField (blk.buf.read32 o) b w : Int) := by
  simp [getFieldRaw, memRead4_ok h, bind, Except.bind, pure, Except.pure]

/-- The codec changes the buffer and nothing else of the block. -/
theorem setFieldRaw_only_buf {blk b' : Block} {o b w : Nat} {v : Int}
    (h : setFieldRaw o b w v blk = .ok b') : ∃ m, b' = blk.withBuf m := by
  by_cases ho : o + 4 ≤ blk.frameLen
  · rw [setFieldRaw_ok ho] at h
    exact ⟨_, by simpa using h.symm⟩
  · simp [setFieldRaw, Block.memRead4, ho, bind, Except.bind] at h

theorem writeChannel_only_buf {blk b' : Block} {i : Int} {v : Slot}
    (h : writeChannel i v blk = .ok b') : ∃ m, b' = blk.withBuf m := by
  simp only [writeChannel, bind, Except.bind] at h
  split at h
  · simp at h
  · simp only [Block.memWrite2] at h
    split at h
    · exact ⟨_, by simpa using h.symm⟩
    · simp at h

theorem setHeaderField_only_buf {blk b' : Block} {c : Nat} {f : HeaderField} {v : Int}
    (h : setHeaderField c f v blk = .ok b') : ∃ m, b' = blk.withBuf m :=
  setFieldRaw_only_buf h

theorem except_bind_ok {α β : Type} {x : Except Fault α} {f : α → Except Fault β} {y : β}
    (h : (x >>= f) = .ok y) : ∃ a, x = .ok a ∧ f a = .ok y := by
  cases x with
  | error e => simp [bind, Except.bind] at h
  | ok a => exact ⟨a, rfl, h⟩

theorem writeBC_only_buf {blk b' : Block} {c : Nat} (h : writeBC c blk = .ok b') :
    ∃ m, b' = blk.withBuf m := by
  unfold writeBC at h
  obtain ⟨b1, h1, h⟩ := except_bind_ok h
  obtain ⟨b2, h2, h3⟩ := except_bind_ok h
  obtain ⟨m1, rfl⟩ := setHeaderField_only_buf h1
  obtain ⟨m2, rfl⟩ := setHeaderField_only_buf h2
  obtain ⟨m, rfl⟩ := setHeaderField_only_buf h3
  exact ⟨m, rfl⟩

theorem writeFC_only_buf {blk b' : Block} {c : Nat} (h : writeFC c blk = .ok b') :
    ∃ m, b' = blk.withBuf m := by
  unfold writeFC at h
  obtain ⟨b1, h1, h⟩ := except_bind_ok h
  obtain ⟨b2, h2, h⟩ := except_bind_ok h
  obtain ⟨b3, h3, h⟩ := except_bind_ok h
  obtain ⟨b4, h4, h5⟩ := except_bind_ok h
  obtain ⟨m1, rfl⟩ := setHeaderField_only_buf h1
  obtain ⟨m2, rfl⟩ := setHeaderField_only_buf h2
  obtain ⟨m3, rfl⟩ := setHeaderField_only_buf h3
  obtain ⟨m4, rfl⟩ := setHeaderField_only_buf h4
  obtain ⟨m, rfl⟩ := setHeaderField_only_buf h5
  exact ⟨m, rfl⟩

theorem initHeader_only_buf {blk b' : Block} {c : Nat} {wc : BitVec 6}
    (h : initHeader wc c blk = .ok b') : ∃ m, b' = blk.withBuf m := by
  unfold initHeader at h
  obtain ⟨b1, h1, h⟩ := except_bind_ok h
  obtain ⟨b2, h2, h3⟩ := except_bind_ok h
  obtain ⟨m1, rfl⟩ := setHeaderField_only_buf h1
  obtain ⟨m2, rfl⟩ := writeFC_only_buf h2
  obtain ⟨m, rfl⟩ := writeBC_only_buf h3
  exact ⟨m, rfl⟩

/-- A fold of block updates that touch only the buffer touches only the buffer. -/
theorem foldlM_only_buf {α : Type} {f : Block → α → Except Fault Block}
    (hf : ∀ b a b', f b a = .ok b' → ∃ m, b' = b.withBuf m) (l : List α) {blk b' : Block}
    (h : l.foldlM f blk = .ok b') : ∃ m, b' = blk.withBuf m := by
  induction l generalizing blk with
  | nil => exact ⟨blk.buf, by simpa [pure, Except.pure] using h.symm⟩
  | cons a l ih =>
    rw [List.foldlM_cons] at h
    obtain ⟨b1, h1, h⟩ := except_bind_ok h
    obtain ⟨m, rfl⟩ := hf _ _ _ h1
    obtain ⟨m', rfl⟩ := ih h
    exact ⟨m', rfl⟩

theorem forEachChip_only_buf {f : Nat → Block → Except Fault Block}
    (hf : ∀ b c b', f c b = .ok b' → ∃ m, b' = b.withBuf m) {blk b' : Block}
    (h : forEachChip f blk = .ok b') : ∃ m, b' = blk.withBuf m :=
  foldlM_only_buf (f := fun b c => f c b) hf _ h

theorem writeAllChannels_only_buf {blk b' : Block} {v : Slot}
    (h : writeAllChannels v blk = .ok b') : ∃ m, b' = blk.withBuf m :=
  foldlM_only_buf (fun _ _ _ => writeChannel_only_buf) _ h

/-! ### Header words -/

/-- A header word with its brightness bits written from the registers. -/
def bcWord (r g b : Brightness) (w : Word) : Word :=
  insertField (insertField (insertField w 14 7 r.toNat) 7 7 g.toNat) 0 7 b.toNat

/-- A header word with its function-control bits written from the registers. -/
def fcWord (ot eg tr dr bl : Bool) (w : Word) : Word :=
  insertField (insertField (insertField (insertField (insertField w 25 1 (flagValue ot))
    24 1 (flagValue eg)) 23 1 (flagValue tr)) 22 1 (flagValue dr)) 21 1 (flagValue bl)

theorem truncBits_toNat {n : Nat} (w : Nat) (v : BitVec n) (h : n ≤ w) :
    truncBits w v.toNat = v.toNat :=
  truncBits_natCast (Nat.lt_of_lt_of_le v.isLt (Nat.pow_le_pow_right (by omega) h))

theorem truncBits_flagValue_testBit (f : Bool) (k : Nat) :
    (truncBits 1 (flagValue f)).testBit k = (decide (k = 0) && f) := by
  cases f <;> rcases k with _ | k <;>
    simp [flagValue, truncBits, Nat.testBit_succ]

theorem bcWord_getLsbD (r g b : Brightness) (w : Word) (k : Nat) :
    (bcWord r g b w).getLsbD k =
      if k < 21 then (bcField r g b).getLsbD k else w.getLsbD k := by
  simp only [bcWord, bcField, insertField_getLsbD, BitVec.getLsbD_append,
    truncBits_toNat 7 _ (Nat.le_refl 7), BitVec.testBit_toNat]
  split_ifs <;> first | omega | rfl | (simp (disch := omega) only [decide_eq_true, Bool.true_and,
    Nat.sub_zero, Nat.sub_sub, Nat.reduceAdd])

theorem bcWord_eq (r g b : Brightness) (w : Word) :
    bcWord r g b w = w.extractLsb' 21 11 ++ bcField r g b := by
  apply BitVec.eq_of_getLsbD_eq
  intro k hk
  rw [bcWord_getLsbD, BitVec.getLsbD_append, BitVec.getLsbD_extractLsb']
  split_ifs with h
  · rfl
  · simp [show k - 21 < 11 by omega, show 21 + (k - 21) = k by omega]

theorem fcField_getLsbD (ot eg tr dr bl : Bool) (k : Nat) :
    (fcField ot eg tr dr bl).getLsbD k =
      if k = 0 then bl else if k = 1 then dr else if k = 2 then tr else if k = 3 then eg
      else if k = 4 then ot else false := by
  simp only [fcField, BitVec.getLsbD_append, BitVec.getLsbD_ofBool]
  split_ifs <;> first | omega | (simp (disch := omega) <;> omega)

theorem fcWord_getLsbD (ot eg tr dr bl : Bool) (w : Word) (k : Nat) :
    (fcWord ot eg tr dr bl w).getLsbD k =
      if 21 ≤ k ∧ k < 26 then (fcField ot eg tr dr bl).getLsbD (k - 21) else w.getLsbD k := by
  simp only [fcWord, fcField_getLsbD, insertField_getLsbD, truncBits_flagValue_testBit]
  split_ifs <;> first | omega | rfl | simp (disch := omega) [decide_eq_true]

theorem fcWord_eq (ot eg tr dr bl : Bool) (w : Word) :
    fcWord ot eg tr dr bl w =
      w.extractLsb' 26 6 ++ fcField ot eg tr dr bl ++ w.extractLsb' 0 21 := by
  apply BitVec.eq_of_getLsbD_eq
  intro k hk
  simp only [fcWord_getLsbD, BitVec.getLsbD_append, BitVec.getLsbD_extractLsb']
  split_ifs <;> first | omega | rfl |
    (simp (disch := omega) only [decide_eq_true, Bool.true_and]; first | rfl | (congr 1; omega))

end Sys2Proof.Machine
end

