-- ==== Sys2Proof/Laws/Loops.lean ====
section
/-! SUPPORT. What the header helpers and the loops over chips and channels leave in the buffer. -/

namespace Sys2Proof.Machine

theorem Memory.write32_write32 {m : Memory} (hm : m.wf) (o : Nat) (v v' : Word) :
    (m.write32 o v).write32 o v' = m.write32 o v' := by
  refine Memory.ext (Memory.wf_write32 (Memory.wf_write32 hm _ _) _ _)
    (Memory.wf_write32 hm _ _) fun x => ?_
  rw [Memory.read_write32 (Memory.wf_write32 hm _ _), Memory.read_write32 hm,
    Memory.read_write32 hm]
  split_ifs <;> rfl

/-- The codec at a header field, when the header lies in the buffer. -/
theorem setHeaderField_ok {blk : Block} {c : Nat} (h : headerOffset c + 4 ≤ blk.frameLen)
    (f : HeaderField) (v : Int) :
    setHeaderField c f v blk =
      .ok (blk.withBuf (blk.buf.write32 (headerOffset c)
        (insertField (blk.headerOf c) (headerBitOffset f) (headerWidth f) v))) :=
  setFieldRaw_ok h _ _ _

theorem setHeaderField_withBuf_ok {blk : Block} {c : Nat}
    (h : headerOffset c + 4 ≤ blk.frameLen) (m : Memory) (f : HeaderField) (v : Int) :
    setHeaderField c f v (blk.withBuf m) =
      .ok (blk.withBuf (m.write32 (headerOffset c)
        (insertField (m.read32 (headerOffset c)) (headerBitOffset f) (headerWidth f) v))) :=
  setHeaderField_ok (blk := blk.withBuf m) h f v

/-- `WriteBC(c)`: one new header word, its brightness bits from the registers. -/
theorem writeBC_withBuf_ok {blk : Block} {c : Nat} {m : Memory} (hm : m.wf)
    (h : headerOffset c + 4 ≤ blk.frameLen) :
    writeBC c (blk.withBuf m) = .ok (blk.withBuf (m.write32 (headerOffset c)
      (bcWord blk.bcr blk.bcg blk.bcb (m.read32 (headerOffset c))))) := by
  simp only [writeBC, bind, Except.bind, setHeaderField_withBuf_ok h, Block.withBuf_bcr,
    Block.withBuf_bcg, Block.withBuf_bcb, Memory.write32_write32 hm, Memory.read32_write32 hm,
    bcWord, headerBitOffset, headerWidth]

/-- `WriteFC(c)`: one new header word, its function-control bits from the registers. -/
theorem writeFC_withBuf_ok {blk : Block} {c : Nat} {m : Memory} (hm : m.wf)
    (h : headerOffset c + 4 ≤ blk.frameLen) :
    writeFC c (blk.withBuf m) = .ok (blk.withBuf (m.write32 (headerOffset c)
      (fcWord blk.outtmg blk.extgck blk.tmgrst blk.dsprpt blk.blank
        (m.read32 (headerOffset c))))) := by
  simp only [writeFC, bind, Except.bind, setHeaderField_withBuf_ok h, Block.withBuf_outtmg,
    Block.withBuf_extgck, Block.withBuf_tmgrst, Block.withBuf_dsprpt, Block.withBuf_blank,
    Memory.write32_write32 hm, Memory.read32_write32 hm, fcWord, headerBitOffset, headerWidth]

/-- The header word that `InitHeader` makes of another one. -/
def initWord (wc : BitVec 6) (b : Block) (w : Word) : Word :=
  bcWord b.bcr b.bcg b.bcb
    (fcWord b.outtmg b.extgck b.tmgrst b.dsprpt b.blank (insertField w 26 6 wc.toNat))

/-- `InitHeader(c)`: one new header word. -/
theorem initHeader_withBuf_ok {blk : Block} {c : Nat} {wc : BitVec 6} {m : Memory} (hm : m.wf)
    (h : headerOffset c + 4 ≤ blk.frameLen) :
    initHeader wc c (blk.withBuf m) = .ok (blk.withBuf (m.write32 (headerOffset c)
      (initWord wc blk (m.read32 (headerOffset c))))) := by
  have hwf := fun v => Memory.wf_write32 hm (headerOffset c) v
  simp only [initHeader, bind, Except.bind, setHeaderField_withBuf_ok h,
    writeFC_withBuf_ok (hwf _) h, Memory.write32_write32 hm, writeBC_withBuf_ok (hwf _) h,
    Memory.read32_write32 hm, initWord, headerBitOffset, headerWidth]

/-- The initialised header word does not depend on the word it is made of
(43_lifecycle.md R183). -/
theorem initWord_eq (wc : BitVec 6) (b : Block) (w : Word) :
    initWord wc b w = b.registerHeader wc := by
  apply BitVec.eq_of_getLsbD_eq
  intro k hk
  simp only [initWord, Block.registerHeader, headerWord, bcWord_getLsbD, fcWord_getLsbD,
    insertField_getLsbD, BitVec.getLsbD_append, truncBits_toNat 6 _ (Nat.le_refl 6),
    BitVec.testBit_toNat]
  split_ifs <;> first
    | omega
    | rfl
    | simp (disch := omega) only [decide_eq_true, Bool.true_and, Nat.sub_sub, Nat.reduceAdd]

/-- A buffer in which every one of the first `n` headers has been rewritten by `g` and no other
byte has changed. -/
structure HeadersRewritten (n : Nat) (g : Word → Word) (m m' : Memory) : Prop where
  wf : m'.wf
  bound : ∀ len, 28 * n ≤ len → (∀ c ∈ m, c.1 < len) → ∀ c ∈ m', c.1 < len
  header : ∀ c, c < n → m'.read32 (headerOffset c) = g (m.read32 (headerOffset c))
  other : ∀ a, (∀ c, c < n → a < headerOffset c ∨ headerOffset c + 4 ≤ a) → m'.read a = m.read a

theorem headersRewritten_zero {m : Memory} (hm : m.wf) (g : Word → Word) :
    HeadersRewritten 0 g m m :=
  ⟨hm, fun _ _ h => h, fun _ h => absurd h (Nat.not_lt_zero _), fun _ _ => rfl⟩

theorem headersRewritten_succ {n : Nat} {g : Word → Word} {m m' : Memory}
    (h : HeadersRewritten n g m m') :
    HeadersRewritten (n + 1) g m
      (m'.write32 (headerOffset n) (g (m'.read32 (headerOffset n)))) where
  wf := Memory.wf_write32 h.wf _ _
  bound len hl hb := Memory.bound_write32 (h.bound len (by omega) hb)
    (by unfold headerOffset; omega)
  header c hc := by
    have same : m'.read32 (headerOffset n) = m.read32 (headerOffset n) :=
      Memory.read32_congr fun x h1 h2 => h.other x fun d hd => by
        unfold headerOffset at h1 h2 ⊢; omega
    rcases Nat.lt_succ_iff_lt_or_eq.mp hc with hc | rfl
    · rw [Memory.read32_write32_of_disjoint (by unfold headerOffset; omega), h.header c hc]
    · rw [Memory.read32_write32 h.wf, same]
  other a ha := by
    rw [Memory.read_write32_of_outside (ha n (Nat.lt_succ_self n))]
    exact h.other a fun c hc => ha c (Nat.lt_succ_of_lt hc)

/-- The loop over the first `n` chips of an update that rewrites one header word by `g`. -/
theorem foldlM_headers {f : Nat → Block → Except Fault Block} {g : Word → Word} {blk : Block}
    (hf : ∀ m c, Memory.wf m → headerOffset c + 4 ≤ blk.frameLen →
      f c (blk.withBuf m) = .ok (blk.withBuf (m.write32 (headerOffset c)
        (g (m.read32 (headerOffset c))))))
    (hm : blk.buf.wf) (n : Nat) (hn : 28 * n ≤ blk.frameLen) :
    ∃ m', (List.range n).foldlM (fun b c => f c b) blk = .ok (blk.withBuf m') ∧
      HeadersRewritten n g blk.buf m' := by
  induction n with
  | zero => exact ⟨blk.buf, rfl, headersRewritten_zero hm g⟩
  | succ n ih =>
    obtain ⟨m', h1, h2⟩ := ih (by omega)
    refine ⟨_, ?_, headersRewritten_succ h2⟩
    rw [List.range_succ, List.foldlM_append, h1]
    simp only [bind, Except.bind, List.foldlM_cons, List.foldlM_nil, pure, Except.pure]
    rw [hf m' n h2.wf (by unfold headerOffset; omega)]

/-- `for c = 0 .. C-1: WriteBC(c)`. -/
theorem forEachChip_writeBC {blk : Block} (hm : blk.buf.wf) (hn : 28 * blk.chips ≤ blk.frameLen) :
    ∃ m', forEachChip writeBC blk = .ok (blk.withBuf m') ∧
      HeadersRewritten blk.chips (bcWord blk.bcr blk.bcg blk.bcb) blk.buf m' :=
  foldlM_headers (g := bcWord blk.bcr blk.bcg blk.bcb)
    (fun _ _ hm h => writeBC_withBuf_ok hm h) hm _ hn

/-- `for c = 0 .. C-1: WriteFC(c)`. -/
theorem forEachChip_writeFC {blk : Block} (hm : blk.buf.wf) (hn : 28 * blk.chips ≤ blk.frameLen) :
    ∃ m', forEachChip writeFC blk = .ok (blk.withBuf m') ∧
      HeadersRewritten blk.chips
        (fcWord blk.outtmg blk.extgck blk.tmgrst blk.dsprpt blk.blank) blk.buf m' :=
  foldlM_headers (g := fcWord blk.outtmg blk.extgck blk.tmgrst blk.dsprpt blk.blank)
    (fun _ _ hm h => writeFC_withBuf_ok hm h) hm _ hn

/-- `for c = 0 .. C-1: InitHeader(c)`. -/
theorem forEachChip_initHeader {blk : Block} (wc : BitVec 6) (hm : blk.buf.wf)
    (hn : 28 * blk.chips ≤ blk.frameLen) :
    ∃ m', forEachChip (initHeader wc) blk = .ok (blk.withBuf m') ∧
      HeadersRewritten blk.chips (fun _ => blk.registerHeader wc) blk.buf m' := by
  refine foldlM_headers (g := fun _ => blk.registerHeader wc) (fun m c hm h => ?_) hm _ hn
  rw [initHeader_withBuf_ok hm h, initWord_eq]

/-! ### Channels -/

/-- What the channel commands need of a driver: the table of its channels, inside the buffer. -/
structure Block.ChannelsOK (b : Block) : Prop where
  lut : b.lut = lookupTable b.channels
  fits : ∀ j, j < b.channels → channelOffset j + 2 ≤ b.frameLen

theorem Block.DriverOK.channelsOK {b : Block} (h : b.DriverOK) : b.ChannelsOK := by
  obtain ⟨-, h4, -, hch, hlen, hlut, -⟩ := h
  refine ⟨hlut, fun j hj => ?_⟩
  rw [hlen, frameLength, chipCount]
  refine channelOffset_lt ?_
  rw [hch, channelCount] at hj
  omega

theorem Block.DriverOK.headersFit {b : Block} (h : b.DriverOK) : 28 * b.chips ≤ b.frameLen := by
  rw [h.2.2.1, h.2.2.2.2.1, frameLength]

/-- The offset of a channel command (41_channel.md R130). -/
theorem channelSlot_ok {b : Block} (h : b.ChannelsOK) {i : Int} (h0 : 0 ≤ i)
    (h1 : i < b.channels) :
    b.channelSlot i = .ok (channelOffset (b.channels - 1 - i.toNat)) := by
  have e : (reverseIndex b.channels i).toNat = b.channels - 1 - i.toNat := by
    unfold reverseIndex; omega
  simp only [Block.channelSlot, e, h.lut]
  rw [lookupTable_getElem? (by omega)]

theorem writeChannel_ok {b : Block} (h : b.ChannelsOK) {i : Int} (h0 : 0 ≤ i)
    (h1 : i < b.channels) (v : Slot) :
    writeChannel i v b = .ok (b.withBuf
      (b.buf.write16 (channelOffset (b.channels - 1 - i.toNat)) v)) := by
  simp only [writeChannel, channelSlot_ok h h0 h1, bind, Except.bind]
  exact memWrite2_ok (h.fits _ (by omega)) v

theorem readChannel_ok {b : Block} (h : b.ChannelsOK) {i : Int} (h0 : 0 ≤ i)
    (h1 : i < b.channels) :
    readChannel i b = .ok (b.slotOf (b.channels - 1 - i.toNat)) := by
  simp only [readChannel, channelSlot_ok h h0 h1, bind, Except.bind]
  exact memRead2_ok (h.fits _ (by omega))

theorem Block.ChannelsOK.withBuf {b : Block} (h : b.ChannelsOK) (m : Memory) :
    (b.withBuf m).ChannelsOK := ⟨h.lut, h.fits⟩

/-- A buffer in which the slots of the physical channels in `p` hold `v` and no byte outside them
has changed. -/
structure SlotsWritten (p : Nat → Prop) (v : Slot) (m m' : Memory) : Prop where
  wf : m'.wf
  bound : ∀ len, (∀ j, p j → channelOffset j + 2 ≤ len) → (∀ c ∈ m, c.1 < len) →
    ∀ c ∈ m', c.1 < len
  slot : ∀ j, p j → m'.read16 (channelOffset j) = v
  other : ∀ a, (∀ j, p j → a < channelOffset j ∨ channelOffset j + 2 ≤ a) → m'.read a = m.read a

theorem slotsWritten_write {p q : Nat → Prop} {v : Slot} {m m' : Memory} {j : Nat}
    (h : SlotsWritten p v m m') (hq : ∀ k, q k ↔ k = j ∨ p k) :
    SlotsWritten q v m (m'.write16 (channelOffset j) v) where
  wf := Memory.wf_write16 h.wf _ _
  bound len hl hb := Memory.bound_write16
    (h.bound len (fun k hk => hl k ((hq k).mpr (.inr hk))) hb) (hl j ((hq j).mpr (.inl rfl)))
  slot k hk := by
    rcases eq_or_ne k j with rfl | hne
    · exact Memory.read16_write16 h.wf _ _
    · rw [Memory.read16_write16_of_disjoint (channelOffset_disjoint hne)]
      exact h.slot k (((hq k).mp hk).resolve_left hne)
  other a ha := by
    rw [Memory.read_write16_of_outside (ha j ((hq j).mpr (.inl rfl)))]
    exact h.other a fun k hk => ha k ((hq k).mpr (.inr hk))

/-- The headers stay when only slots are written. -/
theorem SlotsWritten.header {p : Nat → Prop} {v : Slot} {m m' : Memory}
    (h : SlotsWritten p v m m') (c : Nat) :
    m'.read32 (headerOffset c) = m.read32 (headerOffset c) :=
  Memory.read32_congr fun x _ _ => h.other x fun j _ => by
    have := headerOffset_disjoint c j; omega

/-- The loop over the first `n` logical channels. -/
theorem foldlM_channels {blk : Block} (h : blk.ChannelsOK) (hm : blk.buf.wf) (v : Slot) (n : Nat)
    (hn : n ≤ blk.channels) :
    ∃ m', (List.range n).foldlM (fun b i => writeChannel (i : Nat) v b) blk =
        .ok (blk.withBuf m') ∧
      SlotsWritten (fun j => blk.channels - n ≤ j ∧ j < blk.channels) v blk.buf m' := by
  induction n with
  | zero =>
    exact ⟨blk.buf, rfl, hm, fun _ _ hb => hb, fun j hj => absurd hj.2 (by omega),
      fun _ _ => rfl⟩
  | succ n ih =>
    obtain ⟨m', h1, h2⟩ := ih (by omega)
    refine ⟨_, ?_, slotsWritten_write (j := blk.channels - 1 - n) h2 fun k => by omega⟩
    rw [List.range_succ, List.foldlM_append, h1]
    simp only [bind, Except.bind, List.foldlM_cons, List.foldlM_nil, pure, Except.pure]
    rw [writeChannel_ok (h.withBuf m') (Int.natCast_nonneg n) (by simp; omega)]
    simp

/-- `for i = 0 .. N-1: MemWrite(lut[Rev(i)], 2, v)`. -/
theorem writeAllChannels_ok {blk : Block} (h : blk.ChannelsOK) (hm : blk.buf.wf) (v : Slot) :
    ∃ m', writeAllChannels v blk = .ok (blk.withBuf m') ∧
      SlotsWritten (fun j => j < blk.channels) v blk.buf m' := by
  obtain ⟨m', h1, h2⟩ := foldlM_channels h hm v blk.channels (Nat.le_refl _)
  refine ⟨m', h1, h2.wf, fun len hl => h2.bound len fun j hj => hl j hj.2,
    fun j hj => h2.slot j ⟨by omega, hj⟩, fun a ha => h2.other a fun j hj => ha j hj.2⟩

end Sys2Proof.Machine
end

