-- ==== Sys2Proof/Laws/Commands.lean ====
section
/-! SUPPORT. Everything each command can do when it gives a next state, said once (the inversion
lemmas), and the state it gives when a driver in order runs it (the forward lemmas). -/

namespace Sys2Proof.Machine

/-! ### Inversion -/

theorem execSetField_next {o b w v : Int} {s t : State} (h : execSetField o b w v s = .next t) :
    (StopTaken s t ∧ ¬ s.Running) ∨ (s.Running ∧
      ((∃ m, t = (s.withBlock (s.block.withBuf m)).reply .ok) ∨
        t = s.reply (.err .fieldGeometry))) := by
  rcases commonChecks_next h with h | ⟨hr, h⟩
  · exact .inl h
  · refine .inr ⟨hr, ?_⟩
    split at h
    · obtain ⟨b', hb, rfl⟩ := commit_next h
      obtain ⟨m, rfl⟩ := setFieldRaw_only_buf hb
      exact .inl ⟨m, rfl⟩
    · exact .inr (by simpa [raise] using h.symm)

theorem execGetField_next {o b w : Int} {s t : State} (h : execGetField o b w s = .next t) :
    (StopTaken s t ∧ ¬ s.Running) ∨ (s.Running ∧
      ((∃ n, t = s.reply (.value n)) ∨ t = s.reply (.err .fieldGeometry))) := by
  rcases commonChecks_next h with h | ⟨hr, h⟩
  · exact .inl h
  · refine .inr ⟨hr, ?_⟩
    split at h
    · obtain ⟨n, -, rfl⟩ := commitValue_next h
      exact .inl ⟨n, rfl⟩
    · exact .inr (by simpa [raise] using h.symm)

theorem execSetChannel_next {i : Int} {p : Rat} {s t : State}
    (h : execSetChannel i p s = .next t) :
    (StopTaken s t ∧ ¬ s.Running) ∨ (s.Running ∧
      ((∃ v m, writeChannel i v s.block = .ok (s.block.withBuf m) ∧
          t = (s.withBlock (s.block.withBuf m)).reply .ok) ∨
        t = s.reply (.err .channelIndex) ∨ t = s.reply (.err .pwmValue))) := by
  rcases commonChecks_next h with h | ⟨hr, h⟩
  · exact .inl h
  · refine .inr ⟨hr, ?_⟩
    split at h
    · simp only at h
      split at h
      · obtain ⟨b', hb, rfl⟩ := commit_next h
        obtain ⟨m, rfl⟩ := writeChannel_only_buf hb
        exact .inl ⟨_, m, hb, rfl⟩
      · exact .inr (.inr (by simpa [raise] using h.symm))
    · exact .inr (.inl (by simpa [raise] using h.symm))

theorem execGetChannel_next {i : Int} {s t : State} (h : execGetChannel i s = .next t) :
    (StopTaken s t ∧ ¬ s.Running) ∨ (s.Running ∧
      ((∃ n, t = s.reply (.value n)) ∨ t = s.reply (.err .channelIndex))) := by
  rcases commonChecks_next h with h | ⟨hr, h⟩
  · exact .inl h
  · refine .inr ⟨hr, ?_⟩
    split at h
    · obtain ⟨n, -, rfl⟩ := commitValue_next h
      exact .inl ⟨n, rfl⟩
    · exact .inr (by simpa [raise] using h.symm)

theorem execSetAll_next {p : Rat} {s t : State} (h : execSetAll p s = .next t) :
    (StopTaken s t ∧ ¬ s.Running) ∨ (s.Running ∧
      ((∃ v m, writeAllChannels v s.block = .ok (s.block.withBuf m) ∧
          t = (s.withBlock (s.block.withBuf m)).reply .ok) ∨
        t = s.reply (.err .pwmValue))) := by
  rcases commonChecks_next h with h | ⟨hr, h⟩
  · exact .inl h
  · refine .inr ⟨hr, ?_⟩
    simp only at h
    split at h
    · obtain ⟨b', hb, rfl⟩ := commit_next h
      obtain ⟨m, rfl⟩ := writeAllChannels_only_buf hb
      exact .inl ⟨_, m, hb, rfl⟩
    · exact .inr (by simpa [raise] using h.symm)

theorem execSetAllOff_next {s t : State} (h : execSetAllOff s = .next t) :
    (StopTaken s t ∧ ¬ s.Running) ∨ (s.Running ∧
      ∃ m, writeAllChannels 0x0000#16 s.block = .ok (s.block.withBuf m) ∧
        t = (s.withBlock (s.block.withBuf m)).reply .ok) := by
  rcases commonChecks_next h with h | ⟨hr, h⟩
  · exact .inl h
  · obtain ⟨b', hb, rfl⟩ := commit_next h
    obtain ⟨m, rfl⟩ := writeAllChannels_only_buf hb
    exact .inr ⟨hr, m, hb, rfl⟩

/-- The machine after the buffer `frame` has been sent and logged. -/
def State.afterEmit (cfg : BusConfig) (s : State) : State :=
  ((s.withPort (s.port.askTransmit cfg s.block.frame).2).withBlock (s.block.logTransmission
    ⟨s.block.frame, (s.port.askTransmit cfg s.block.frame).1⟩)).reply
      (transmitResult (s.port.askTransmit cfg s.block.frame).1)

theorem execSetBrightness_next {r g b : Int} {s t : State}
    (h : execSetBrightness r g b s = .next t) :
    (StopTaken s t ∧ ¬ s.Running) ∨ (s.Running ∧ ∃ m cfg, s.block.bus = .opened cfg ∧
      forEachChip writeBC (s.block.withBrightness (truncBrightness r) (truncBrightness g)
          (truncBrightness b)) =
        .ok ((s.block.withBrightness (truncBrightness r) (truncBrightness g)
          (truncBrightness b)).withBuf m) ∧
      t = (s.withBlock ((s.block.withBrightness (truncBrightness r) (truncBrightness g)
        (truncBrightness b)).withBuf m)).afterEmit cfg) := by
  rcases commonChecks_next h with h | ⟨hr, h⟩
  · exact .inl h
  · refine .inr ⟨hr, ?_⟩
    split at h
    · next blk hb =>
      obtain ⟨m, rfl⟩ := forEachChip_only_buf (fun _ _ _ => writeBC_only_buf) hb
      obtain ⟨cfg, hc, rfl⟩ := emit_next h
      exact ⟨m, cfg, hc, hb, rfl⟩
    · simp at h

theorem execSetFunctionControl_next {ot eg tr dr bl : Bool} {s t : State}
    (h : execSetFunctionControl ot eg tr dr bl s = .next t) :
    (StopTaken s t ∧ ¬ s.Running) ∨ (s.Running ∧ ∃ m,
      forEachChip writeFC (s.block.withFunctionControl ot eg tr dr bl) =
        .ok ((s.block.withFunctionControl ot eg tr dr bl).withBuf m) ∧
      t = (s.withBlock ((s.block.withFunctionControl ot eg tr dr bl).withBuf m)).reply .ok) := by
  rcases commonChecks_next h with h | ⟨hr, h⟩
  · exact .inl h
  · obtain ⟨b', hb, rfl⟩ := commit_next h
    obtain ⟨m, rfl⟩ := forEachChip_only_buf (fun _ _ _ => writeFC_only_buf) hb
    exact .inr ⟨hr, m, hb, rfl⟩

theorem execShow_next {s t : State} (h : execShow s = .next t) :
    (StopTaken s t ∧ ¬ s.Running) ∨
      (s.Running ∧ ∃ cfg, s.block.bus = .opened cfg ∧ t = s.afterEmit cfg) := by
  rcases commonChecks_next h with h | ⟨hr, h⟩
  · exact .inl h
  · exact .inr ⟨hr, emit_next h⟩

theorem execDeinit_next {s t : State} (h : execDeinit s = .next t) :
    (StopTaken s t ∧ ¬ s.Running) ∨
      (s.Running ∧ t = (s.withBlock s.block.afterDeinit).reply .ok) := by
  rcases commonChecks_next h with h | ⟨hr, h⟩
  · exact .inl h
  · exact .inr ⟨hr, by simpa [commit] using h.symm⟩

theorem execConstruct_next {p : Int} {bus : BusConfig} {s t : State}
    (h : execConstruct p bus s = .next t) :
    StopTaken s t ∨ (s.block.halt = none ∧ s.block.life ≠ .ready ∧
      (t = s.reply (.err .badPixelCount) ∨
        t = (s.withPort (s.port.askBusOpen bus).2).reply (.err .busOpenFailed) ∨
        ∃ m, 0 < p ∧ p % 4 = 0 ∧
          forEachChip (initHeader s.config.writeCmd) (Block.fresh s.config p.toNat bus s.block) =
            .ok ((Block.fresh s.config p.toNat bus s.block).withBuf m) ∧
          t = ((s.withPort (s.port.askBusOpen bus).2).withBlock
            ((Block.fresh s.config p.toNat bus s.block).withBuf m)).reply .ok)) := by
  rcases unlessStopped_next h with h | ⟨hn, h⟩
  · exact .inl h
  · split_ifs at h with h1 h2 h3
    · exact .inl (takeStop_next hn h)
    · exact .inl (takeStop_next hn h)
    · refine .inr ⟨hn, h1, .inr ?_⟩
      simp only at h
      split at h
      · exact .inl (by simpa [raise] using h.symm)
      · obtain ⟨b', hb, rfl⟩ := commit_next h
        obtain ⟨m, rfl⟩ := forEachChip_only_buf (fun _ _ _ => initHeader_only_buf) hb
        exact .inr ⟨m, h3.1, h3.2, hb, rfl⟩
    · exact .inr ⟨hn, h1, .inl (by simpa [raise] using h.symm)⟩

/-! ### Forward lemmas -/

theorem execSetField_ok {o b w v : Int} {s : State} (hr : s.Running)
    (hf : fieldOK s.block.frameLen o b w) :
    execSetField o b w v s = .next ((s.withBlock (s.block.withBuf (s.block.buf.write32 o.toNat
      (insertField (s.block.buf.read32 o.toNat) b.toNat w.toNat v)))).reply .ok) := by
  have hf' := hf
  rw [execSetField, commonChecks_running hr, if_pos hf, setFieldRaw_ok (by omega)]
  rfl

theorem execGetField_ok {o b w : Int} {s : State} (hr : s.Running)
    (hf : fieldOK s.block.frameLen o b w) :
    execGetField o b w s = .next (s.reply
      (.value (extractField (s.block.buf.read32 o.toNat) b.toNat w.toNat))) := by
  have hf' := hf
  rw [execGetField, commonChecks_running hr, if_pos hf, getFieldRaw_ok (by omega)]
  rfl

theorem Block.Inv.driverOK {b : Block} (h : b.Inv) (hl : b.life = .ready) : b.DriverOK :=
  h.2.2.1 hl

theorem State.Running.driverOK {s : State} (hr : s.Running) (h : s.Inv) : s.block.DriverOK :=
  Block.Inv.driverOK h hr.2

theorem execSetChannel_ok {i : Int} {p : Rat} {s : State} (hr : s.Running) (hi : s.Inv)
    (h0 : 0 ≤ i) (h1 : i < s.block.channels) (hp : pwmOK (pctToPwm s.config.conversion p)) :
    execSetChannel i p s = .next ((s.withBlock (s.block.withBuf (s.block.buf.write16
      (channelOffset (s.block.channels - 1 - i.toNat))
      (BitVec.ofInt 16 (pctToPwm s.config.conversion p))))).reply .ok) := by
  rw [execSetChannel, commonChecks_running hr, if_pos ⟨h0, h1⟩]
  simp only
  rw [if_pos hp, writeChannel_ok (hr.driverOK hi).channelsOK h0 h1]
  rfl

theorem execGetChannel_ok {i : Int} {s : State} (hr : s.Running) (hi : s.Inv)
    (h0 : 0 ≤ i) (h1 : i < s.block.channels) :
    execGetChannel i s = .next (s.reply
      (.value (pwmToPct (s.block.slotOf (s.block.channels - 1 - i.toNat))))) := by
  rw [execGetChannel, commonChecks_running hr, if_pos ⟨h0, h1⟩,
    readChannel_ok (hr.driverOK hi).channelsOK h0 h1]
  rfl

theorem execSetAll_ok {p : Rat} {s : State} (hr : s.Running) (hi : s.Inv)
    (hp : pwmOK (pctToPwm s.config.conversion p)) :
    ∃ m, execSetAll p s = .next ((s.withBlock (s.block.withBuf m)).reply .ok) ∧
      SlotsWritten (fun j => j < s.block.channels)
        (BitVec.ofInt 16 (pctToPwm s.config.conversion p)) s.block.buf m := by
  obtain ⟨m, h1, h2⟩ := writeAllChannels_ok (hr.driverOK hi).channelsOK hi.1
    (BitVec.ofInt 16 (pctToPwm s.config.conversion p))
  refine ⟨m, ?_, h2⟩
  rw [execSetAll, commonChecks_running hr]
  simp only
  rw [if_pos hp, h1]
  rfl

theorem execSetAllOff_ok {s : State} (hr : s.Running) (hi : s.Inv) :
    ∃ m, execSetAllOff s = .next ((s.withBlock (s.block.withBuf m)).reply .ok) ∧
      SlotsWritten (fun j => j < s.block.channels) 0x0000#16 s.block.buf m := by
  obtain ⟨m, h1, h2⟩ := writeAllChannels_ok (hr.driverOK hi).channelsOK hi.1 0x0000#16
  refine ⟨m, ?_, h2⟩
  rw [execSetAllOff, commonChecks_running hr, h1]
  rfl

theorem execShow_ok {s : State} {cfg : BusConfig} (hr : s.Running)
    (hb : s.block.bus = .opened cfg) : execShow s = .next (s.afterEmit cfg) := by
  rw [execShow, commonChecks_running hr, emit_opened hb]
  rfl

theorem execSetBrightness_ok {r g b : Int} {s : State} {cfg : BusConfig} (hr : s.Running)
    (hi : s.Inv) (hb : s.block.bus = .opened cfg) :
    ∃ m, execSetBrightness r g b s =
        .next ((s.withBlock ((s.block.withBrightness (truncBrightness r) (truncBrightness g)
          (truncBrightness b)).withBuf m)).afterEmit cfg) ∧
      HeadersRewritten s.block.chips
        (bcWord (truncBrightness r) (truncBrightness g) (truncBrightness b)) s.block.buf m := by
  obtain ⟨m, h1, h2⟩ := forEachChip_writeBC (blk := s.block.withBrightness (truncBrightness r)
    (truncBrightness g) (truncBrightness b)) hi.1 (hr.driverOK hi).headersFit
  refine ⟨m, ?_, h2⟩
  rw [execSetBrightness, commonChecks_running hr, h1]
  exact emit_opened hb

theorem execSetFunctionControl_ok {ot eg tr dr bl : Bool} {s : State} (hr : s.Running)
    (hi : s.Inv) :
    ∃ m, execSetFunctionControl ot eg tr dr bl s =
        .next ((s.withBlock ((s.block.withFunctionControl ot eg tr dr bl).withBuf m)).reply .ok) ∧
      HeadersRewritten s.block.chips (fcWord ot eg tr dr bl) s.block.buf m := by
  obtain ⟨m, h1, h2⟩ := forEachChip_writeFC (blk := s.block.withFunctionControl ot eg tr dr bl)
    hi.1 (hr.driverOK hi).headersFit
  refine ⟨m, ?_, h2⟩
  rw [execSetFunctionControl, commonChecks_running hr, h1]
  rfl

theorem execDeinit_ok {s : State} (hr : s.Running) :
    execDeinit s = .next ((s.withBlock s.block.afterDeinit).reply .ok) := by
  rw [execDeinit, commonChecks_running hr]
  rfl

theorem aboveCapacity_eq_false {o : Option Nat} {p : Int} :
    aboveCapacity o p = false ↔ ∀ m, o = some m → p ≤ m := by
  cases o <;> simp [aboveCapacity]

/-- The checks of CONSTRUCT passed: what is left is the bus's answer. -/
theorem execConstruct_asks {p : Int} {bus : BusConfig} {s : State} (hn : s.block.halt = none)
    (hl : s.block.life ≠ .ready) (hc : ∀ m, s.config.maxPixels = some m → p ≤ m)
    (hp : pixelCountOK p) :
    execConstruct p bus s =
      match (s.port.askBusOpen bus).1 with
      | .fail => raise .busOpenFailed (s.withPort (s.port.askBusOpen bus).2)
      | .ok => commit (forEachChip (initHeader s.config.writeCmd)
          (Block.fresh s.config p.toNat bus s.block)) .ok
          (s.withPort (s.port.askBusOpen bus).2) := by
  refine (unlessStopped_none hn _).trans ((if_neg hl).trans ((if_neg ?_).trans (if_pos hp)))
  simp [aboveCapacity_eq_false.mpr hc]

theorem execConstruct_ok {p : Int} {bus : BusConfig} {s : State} (hn : s.block.halt = none)
    (hl : s.block.life ≠ .ready) (hc : ∀ m, s.config.maxPixels = some m → p ≤ m)
    (hp : pixelCountOK p) (hb : (s.port.askBusOpen bus).1 = .ok) :
    ∃ m, execConstruct p bus s = .next (((s.withPort (s.port.askBusOpen bus).2).withBlock
        ((Block.fresh s.config p.toNat bus s.block).withBuf m)).reply .ok) ∧
      HeadersRewritten (chipCount p.toNat)
        (fun _ => (Block.fresh s.config p.toNat bus s.block).registerHeader s.config.writeCmd)
        [] m := by
  obtain ⟨m, h1, h2⟩ := forEachChip_initHeader
    (blk := Block.fresh s.config p.toNat bus s.block) s.config.writeCmd
    Memory.wf_nil (Nat.le_refl _)
  refine ⟨m, ?_, h2⟩
  rw [execConstruct_asks hn hl hc hp, hb, h1]
  rfl

end Sys2Proof.Machine
end

