-- ==== Sys2Proof/Laws/Encoding.lean ====
section
/-! SUPPORT. The laws of operands under the decoder: which operand each reader accepts, and what it
reads. -/

namespace Sys2Proof

@[simp] theorem Operand.int?_ofInt (n : Int) : (Operand.ofInt n).int? = some n := by
  simp [Operand.int?, Operand.ofInt]

@[simp] theorem Operand.bool?_ofBool (v : Bool) : (Operand.ofBool v).bool? = some v := by
  cases v <;> simp [Operand.bool?, Operand.ofBool]

@[simp] theorem Operand.rat?_number (q : Rat) : (Operand.number q).rat? = some q := rfl

@[simp] theorem Operand.bus?_bus (c : BusConfig) : (Operand.bus c).bus? = some c := rfl

theorem Operand.int?_eq_some {x : Operand} {n : Int} : x.int? = some n ↔ x = .ofInt n := by
  refine ⟨fun h => ?_, fun h => h ▸ Operand.int?_ofInt n⟩
  cases x with
  | number q =>
    simp only [Operand.int?] at h
    split at h
    · next hq =>
      obtain rfl := Option.some.inj h
      exact congrArg Operand.number (Rat.coe_int_num_of_den_eq_one hq).symm
    · simp at h
  | _ => simp [Operand.int?] at h

theorem Operand.rat?_eq_some {x : Operand} {q : Rat} : x.rat? = some q ↔ x = .number q := by
  cases x <;> simp [Operand.rat?]

theorem Operand.bus?_eq_some {x : Operand} {c : BusConfig} : x.bus? = some c ↔ x = .bus c := by
  cases x <;> simp [Operand.bus?]

theorem Operand.bool?_eq_some {x : Operand} {v : Bool} : x.bool? = some v ↔ x = .ofBool v := by
  refine ⟨fun h => ?_, fun h => h ▸ Operand.bool?_ofBool v⟩
  cases x with
  | number q =>
    simp only [Operand.bool?] at h
    split_ifs at h <;> simp_all [Operand.ofBool]
  | _ => simp [Operand.bool?] at h

@[simp] theorem Operand.hasType_ofInt (n : Int) : (Operand.ofInt n).hasType .int = true := by
  simp [Operand.hasType, Operand.ofInt]

@[simp] theorem Operand.hasType_ofBool (v : Bool) : (Operand.ofBool v).hasType .bool = true := by
  cases v <;> simp [Operand.hasType, Operand.ofBool]

@[simp] theorem Operand.hasType_number (q : Rat) : (Operand.number q).hasType .rat = true := rfl

@[simp] theorem Operand.hasType_bus (c : BusConfig) : (Operand.bus c).hasType .busConfig = true :=
  rfl

theorem Tag.legal_iff (tag : Tag) : tag.legal ↔ 1 ≤ tag.toNat ∧ tag.toNat ≤ 11 := by
  simp [Tag.legal, BitVec.le_def]

theorem Instr.tag_legal (i : Instr) : i.tag.legal := by
  cases i <;> simp [Tag.legal, Instr.tag]

end Sys2Proof
end

