-- ==== Sys2Proof/Laws/Inversion.lean ====
section
/-! SUPPORT. Everything a command can do, in one case analysis for all eleven: a claim over every
command is one goal for each case of `Did`. -/

namespace Sys2Proof.Machine

theorem transmitResult_eq_err {a : TransmitAnswer} {e : CallError}
    (h : transmitResult a = .err e) : e = .transportFault := by
  cases a <;> simp_all [transmitResult]

/-- Which commands raise which error (60_exceptions.md R203 to R205). -/
def raisedBy (i : Instr) : CallError → Prop
  | .badPixelCount | .busOpenFailed => i.tag = 0x01#8
  | .channelIndex => i.tag = 0x04#8 ∨ i.tag = 0x05#8
  | .pwmValue => i.tag = 0x04#8 ∨ i.tag = 0x06#8
  | .fieldGeometry => i.tag = 0x02#8 ∨ i.tag = 0x03#8
  | .transportFault => i.tag = 0x0A#8 ∨ i.tag = 0x08#8

/-- What the command `i` did between `s` and `t`. -/
inductive Did (i : Instr) (s : State) : State → Prop
  /-- A stop answered or taken; the block changes in its stop alone. -/
  | stop {t : State} (h : StopTaken s t) : Did i s t
  /-- A value read and returned. -/
  | value (hr : s.Running) (hi : i.tag = 0x03#8 ∨ i.tag = 0x05#8) (n : Int) :
      Did i s (s.reply (.value n))
  /-- A call rejected before anything was asked or written. -/
  | reject (hn : s.block.halt = none) (e : CallError) (he : raisedBy i e)
      (hk : errorKind e ≠ .transportFault) : Did i s (s.reply (.err e))
  /-- A construction rejected by the bus. -/
  | rejectOpen (hn : s.block.halt = none) (hi : i.tag = 0x01#8) (bus : BusConfig) :
      Did i s ((s.withPort (s.port.askBusOpen bus).2).reply (.err .busOpenFailed))
  /-- The buffer written and nothing else. -/
  | buffer (hr : s.Running)
      (hi : i.tag = 0x02#8 ∨ i.tag = 0x04#8 ∨ i.tag = 0x06#8 ∨ i.tag = 0x07#8) (m : Memory) :
      Did i s ((s.withBlock (s.block.withBuf m)).reply .ok)
  /-- The function-control registers and the headers written. -/
  | functionControl (hr : s.Running) (hi : i.tag = 0x09#8) (ot eg tr dr bl : Bool) (m : Memory) :
      Did i s ((s.withBlock ((s.block.withFunctionControl ot eg tr dr bl).withBuf m)).reply .ok)
  /-- The brightness registers and the headers written, the buffer transmitted. -/
  | brightness (hr : s.Running) (hi : i.tag = 0x08#8) (r g b : Brightness) (m : Memory)
      (cfg : BusConfig) :
      Did i s ((s.withBlock ((s.block.withBrightness r g b).withBuf m)).afterEmit cfg)
  /-- The buffer transmitted. -/
  | shown (hr : s.Running) (hi : i.tag = 0x0A#8) (cfg : BusConfig) : Did i s (s.afterEmit cfg)
  /-- The driver released. -/
  | released (hr : s.Running) (hi : i.tag = 0x0B#8) :
      Did i s ((s.withBlock s.block.afterDeinit).reply .ok)
  /-- A driver built. -/
  | built (hn : s.block.halt = none) (hl : s.block.life ≠ .ready) (hi : i.tag = 0x01#8)
      (pixels : Nat) (bus : BusConfig) (m : Memory) :
      Did i s (((s.withPort (s.port.askBusOpen bus).2).withBlock
        ((Block.fresh s.config pixels bus s.block).withBuf m)).reply .ok)

/-- A command that gives a next state did one of the things of `Did`. -/
theorem exec_did {i : Instr} {s t : State} (h : exec i s = .next t) : Did i s t := by
  have k : ∀ e, errorKind e ≠ .transportFault ↔ e ≠ .transportFault := by
    intro e; cases e <;> simp [errorKind]
  cases i <;> simp only [exec] at h
  case construct p bus =>
    rcases execConstruct_next h with h | ⟨hn, hl, rfl | rfl | ⟨m, -, -, -, rfl⟩⟩
    · exact .stop h
    · exact .reject hn _ rfl (by simp [k])
    · exact .rejectOpen hn rfl bus
    · exact .built hn hl rfl _ bus m
  case setField =>
    rcases execSetField_next h with ⟨h, -⟩ | ⟨hr, ⟨m, rfl⟩ | rfl⟩
    · exact .stop h
    · exact .buffer hr (.inl rfl) m
    · exact .reject hr.1 _ (.inl rfl) (by simp [k])
  case getField =>
    rcases execGetField_next h with ⟨h, -⟩ | ⟨hr, ⟨n, rfl⟩ | rfl⟩
    · exact .stop h
    · exact .value hr (.inl rfl) n
    · exact .reject hr.1 _ (.inr rfl) (by simp [k])
  case setChannel =>
    rcases execSetChannel_next h with ⟨h, -⟩ | ⟨hr, ⟨v, m, -, rfl⟩ | rfl | rfl⟩
    · exact .stop h
    · exact .buffer hr (.inr (.inl rfl)) m
    · exact .reject hr.1 _ (.inl rfl) (by simp [k])
    · exact .reject hr.1 _ (.inl rfl) (by simp [k])
  case getChannel =>
    rcases execGetChannel_next h with ⟨h, -⟩ | ⟨hr, ⟨n, rfl⟩ | rfl⟩
    · exact .stop h
    · exact .value hr (.inr rfl) n
    · exact .reject hr.1 _ (.inr rfl) (by simp [k])
  case setAll =>
    rcases execSetAll_next h with ⟨h, -⟩ | ⟨hr, ⟨v, m, -, rfl⟩ | rfl⟩
    · exact .stop h
    · exact .buffer hr (.inr (.inr (.inl rfl))) m
    · exact .reject hr.1 _ (.inr rfl) (by simp [k])
  case setAllOff =>
    rcases execSetAllOff_next h with ⟨h, -⟩ | ⟨hr, m, -, rfl⟩
    · exact .stop h
    · exact .buffer hr (.inr (.inr (.inr rfl))) m
  case setBrightness =>
    rcases execSetBrightness_next h with ⟨h, -⟩ | ⟨hr, m, cfg, -, -, rfl⟩
    · exact .stop h
    · exact .brightness hr rfl _ _ _ m cfg
  case setFunctionControl =>
    rcases execSetFunctionControl_next h with ⟨h, -⟩ | ⟨hr, m, -, rfl⟩
    · exact .stop h
    · exact .functionControl hr rfl _ _ _ _ _ m
  case showFrame =>
    rcases execShow_next h with ⟨h, -⟩ | ⟨hr, cfg, -, rfl⟩
    · exact .stop h
    · exact .shown hr rfl cfg
  case deinit =>
    rcases execDeinit_next h with ⟨h, -⟩ | ⟨hr, rfl⟩
    · exact .stop h
    · exact .released hr rfl

theorem refuseTag_next {tag : Tag} {s t : State} (h : refuseTag tag s = .next t) :
    StopTaken s t := by
  rcases unlessStopped_next h with h | ⟨hn, h⟩
  · exact h
  · exact takeStop_next hn h

/-- Everything a step can do: wait, run a decoded command, or answer an illegal tag with a stop. -/
theorem step_did {s t : State} (h : step s = .next t) :
    (s.port.pending = [] ∧ t = s) ∨
    ∃ r rest, s.port.pending = r :: rest ∧
      ((∃ i, decode r = .ok i ∧ exec i (s.withPending rest) = .next t) ∨
        StopTaken (s.withPending rest) t) := by
  simp only [step, runNext] at h
  split at h
  · next hp => exact .inl ⟨hp, by simpa using h.symm⟩
  · next r rest hp =>
    refine .inr ⟨r, rest, hp, ?_⟩
    simp only [runRecord] at h
    split at h
    · next i hd => exact .inl ⟨i, hd, h⟩
    · exact .inr (refuseTag_next h)
    · simp at h
    · simp at h

end Sys2Proof.Machine
end

