-- ==== Sys2Proof/Laws/PerInstr.lean ====
section
/-! SUPPORT. Statements about every command as syntax, one lemma per constructor. -/

namespace Sys2Proof.Laws.EncodingFits

open Sys2Proof

/-- A command's encoding is a well-formed record whose operands are as many as its tag requires
(30_encoding.md R91 and R93). -/
def Statement (i : Instr) : Prop :=
  (encode i).wellFormed ∧ (encode i).operands.length = (encode i).tag.operandTypes.length

theorem construct (p : Int) (c : BusConfig) : Statement (.construct p c) := by
  refine ⟨⟨Instr.tag_legal _, ?_⟩, rfl⟩
  simp [encode, Instr.tag, Instr.operands, Tag.operandTypes, operandsFit]

theorem setField (o b w v : Int) : Statement (.setField o b w v) := by
  refine ⟨⟨Instr.tag_legal _, ?_⟩, rfl⟩
  simp [encode, Instr.tag, Instr.operands, Tag.operandTypes, operandsFit]

theorem getField (o b w : Int) : Statement (.getField o b w) := by
  refine ⟨⟨Instr.tag_legal _, ?_⟩, rfl⟩
  simp [encode, Instr.tag, Instr.operands, Tag.operandTypes, operandsFit]

theorem setChannel (i : Int) (p : Rat) : Statement (.setChannel i p) := by
  refine ⟨⟨Instr.tag_legal _, ?_⟩, rfl⟩
  simp [encode, Instr.tag, Instr.operands, Tag.operandTypes, operandsFit]

theorem getChannel (i : Int) : Statement (.getChannel i) := by
  refine ⟨⟨Instr.tag_legal _, ?_⟩, rfl⟩
  simp [encode, Instr.tag, Instr.operands, Tag.operandTypes, operandsFit]

theorem setAll (p : Rat) : Statement (.setAll p) := by
  refine ⟨⟨Instr.tag_legal _, ?_⟩, rfl⟩
  simp [encode, Instr.tag, Instr.operands, Tag.operandTypes, operandsFit]

theorem setAllOff : Statement .setAllOff := by
  refine ⟨⟨Instr.tag_legal _, ?_⟩, rfl⟩
  simp [encode, Instr.tag, Instr.operands, Tag.operandTypes, operandsFit]

theorem setBrightness (r g b : Int) : Statement (.setBrightness r g b) := by
  refine ⟨⟨Instr.tag_legal _, ?_⟩, rfl⟩
  simp [encode, Instr.tag, Instr.operands, Tag.operandTypes, operandsFit]

theorem setFunctionControl (ot eg tr dr bl : Bool) : Statement (.setFunctionControl ot eg tr dr bl) := by
  refine ⟨⟨Instr.tag_legal _, ?_⟩, rfl⟩
  simp [encode, Instr.tag, Instr.operands, Tag.operandTypes, operandsFit]

theorem showFrame : Statement .showFrame := by
  refine ⟨⟨Instr.tag_legal _, ?_⟩, rfl⟩
  simp [encode, Instr.tag, Instr.operands, Tag.operandTypes, operandsFit]

theorem deinit : Statement .deinit := by
  refine ⟨⟨Instr.tag_legal _, ?_⟩, rfl⟩
  simp [encode, Instr.tag, Instr.operands, Tag.operandTypes, operandsFit]

end Sys2Proof.Laws.EncodingFits
end

