-- ==== Sys2Proof/Tests/Slice0.lean ====
section
/-! SUPPORT. Checks on fixed values. The expected values are those of 95_test_vectors.md (named
V-… and P…) and of 30_encoding.md R93, or the hand evaluation a comment gives. The last part shows,
for each statement of the obligations that has hypotheses, a state and operands that meet them. -/

namespace Sys2Proof.Tests

open Sys2Proof Sys2Proof.Machine

-- One kernel evaluation at a time: side by side, their threads' stacks fill the data limit.
set_option Elab.async false

/-! ### States to test on -/

/-- The machine a run of commands ends in; the state after reset where a command stops the run. -/
def after (is : List Instr) (s : State) : State :=
  match execAll is s with
  | .next t => t
  | _ => State.reset

/-- Power-on with a transport that opens every bus asked for here, and then answers fault, ok. -/
def powered : State :=
  State.reset.withPort { Port.powerOn with
    busOpenScript := [.ok, .ok], transmitScript := [.fault, .ok] }

/-- "CONSTRUCT 4" of 95_test_vectors.md. -/
def four : State := after [.construct 4 ⟨0⟩] powered

/-- A block that has been released. -/
def gone : State := after [.construct 4 ⟨0⟩, .deinit] powered

/-- Whether a command gives a next state whose last result is `r` and which satisfies `p`. -/
def gives (i : Instr) (s : State) (r : Result) (p : State → Bool) : Bool :=
  match exec i s with
  | .next t => t.port.results.getLast? == some r && p t
  | _ => false

/-- The header word of chip 0. -/
def hdr (s : State) : Word := s.block.headerOf 0

/-! ### The well-formedness checks refuse an ill-formed record, and so does the decoder -/

theorem test_tag_zero_is_ill_formed : ¬ (Record.mk 0x00#8 []).wellFormed ∧
    decode ⟨0x00#8, []⟩ = .error (.illegalTag 0x00#8) := by decide

theorem test_tag_above_table_is_ill_formed : ¬ (Record.mk 0x0C#8 []).wellFormed ∧
    decode ⟨0x0C#8, []⟩ = .error (.illegalTag 0x0C#8) := by decide

theorem test_missing_operand_is_ill_formed : ¬ (Record.mk 0x04#8 [.number 0]).wellFormed ∧
    decode ⟨0x04#8, [.number 0]⟩ = .error (.operandCount 0x04#8 1) := by decide

theorem test_surplus_operand_is_ill_formed : ¬ (Record.mk 0x0A#8 [.number 0]).wellFormed ∧
    decode ⟨0x0A#8, [.number 0]⟩ = .error (.operandCount 0x0A#8 1) := by decide

theorem test_half_is_no_int : ¬ (Record.mk 0x05#8 [.number (1 / 2)]).wellFormed ∧
    decode ⟨0x05#8, [.number (1 / 2)]⟩ = .error (.operandType 0x05#8) := by decide +kernel

theorem test_infinity_is_no_rat : ¬ (Record.mk 0x06#8 [.nonFinite]).wellFormed ∧
    decode ⟨0x06#8, [.nonFinite]⟩ = .error (.operandType 0x06#8) := by decide

theorem test_text_is_no_rat : ¬ (Record.mk 0x06#8 [.nonNumeric]).wellFormed ∧
    decode ⟨0x06#8, [.nonNumeric]⟩ = .error (.operandType 0x06#8) := by decide

theorem test_two_is_no_bool :
    ¬ (Record.mk 0x09#8 [.number 0, .number 0, .number 2, .number 0, .number 0]).wellFormed ∧
    decode ⟨0x09#8, [.number 0, .number 0, .number 2, .number 0, .number 0]⟩ =
      .error (.operandType 0x09#8) := by decide +kernel

theorem test_number_is_no_bus : ¬ (Record.mk 0x01#8 [.number 4, .number 0]).wellFormed ∧
    decode ⟨0x01#8, [.number 4, .number 0]⟩ = .error (.operandType 0x01#8) := by decide +kernel

theorem test_bus_is_no_int : ¬ (Record.mk 0x05#8 [.bus ⟨0⟩]).wellFormed ∧
    decode ⟨0x05#8, [.bus ⟨0⟩]⟩ = .error (.operandType 0x05#8) := by decide

/-! ### Decoding: the tag written out bit by bit from 30_encoding.md R93 -/

theorem test_decode_construct :
    decode ⟨0b00000001#8, [.number (-4), .bus ⟨9⟩]⟩ = .ok (.construct (-4) ⟨9⟩) := by
  decide +kernel

theorem test_decode_set_field :
    decode ⟨0b00000010#8, [.number 4, .number 16, .number 15, .number (-1)]⟩ =
      .ok (.setField 4 16 15 (-1)) := by decide +kernel

theorem test_decode_get_field :
    decode ⟨0b00000011#8, [.number 28, .number 21, .number 5]⟩ = .ok (.getField 28 21 5) := by
  decide +kernel

theorem test_decode_set_channel :
    decode ⟨0b00000100#8, [.number 5, .number (25 / 2)]⟩ = .ok (.setChannel 5 (25 / 2)) := by
  decide +kernel

theorem test_decode_get_channel :
    decode ⟨0b00000101#8, [.number (-1)]⟩ = .ok (.getChannel (-1)) := by decide +kernel

theorem test_decode_set_all : decode ⟨0b00000110#8, [.number (1 / 3)]⟩ = .ok (.setAll (1 / 3)) := by
  decide +kernel

theorem test_decode_set_all_off : decode ⟨0b00000111#8, []⟩ = .ok .setAllOff := by decide

theorem test_decode_set_brightness :
    decode ⟨0b00001000#8, [.number 10, .number 20, .number 300]⟩ =
      .ok (.setBrightness 10 20 300) := by decide +kernel

theorem test_decode_set_function_control :
    decode ⟨0b00001001#8, [.number 1, .number 0, .number 0, .number 1, .number 0]⟩ =
      .ok (.setFunctionControl true false false true false) := by decide +kernel

theorem test_decode_show : decode ⟨0b00001010#8, []⟩ = .ok .showFrame := by decide

theorem test_decode_deinit : decode ⟨0b00001011#8, []⟩ = .ok .deinit := by decide

theorem test_table_words :
    decodeTableWord 8 0x01 = some (.construct 0 ⟨0⟩) ∧ decodeTableWord 8 0x0B = some .deinit ∧
    decodeTableWord 8 0x00 = none ∧ decodeTableWord 8 0x0C = none ∧
    decodeTableWord 16 0x0107 = none := by decide

/-! ### Assembler and listing (30_encoding.md R96 and R97) -/

/-- Log entry 13: blanks around operands, and a digit on either side of a decimal point. -/
theorem test_assemble_blanks_and_points :
    assemble [] "  SET_ALL   1/3  ".toList = some ⟨0x06#8, [.number (1 / 3)]⟩ ∧
    assemble [] "SET_CHANNEL 3,12.5".toList = some ⟨0x04#8, [.number 3, .number (25 / 2)]⟩ ∧
    assemble [] "SET_ALL .5".toList = none ∧ assemble [] "SET_ALL 5.".toList = none := by
  decide +kernel

theorem test_assemble_example :
    assemble [] "SET_CHANNEL 3, 12.5".toList = some ⟨0x04#8, [.number 3, .number (25 / 2)]⟩ := by
  decide +kernel

theorem test_assemble_bus_and_binary :
    assemble [("bus0".toList, ⟨7⟩)] "CONSTRUCT 4, @bus0".toList =
      some ⟨0x01#8, [.number 4, .bus ⟨7⟩]⟩ ∧
    assemble [] "SET_FIELD 0, 26, 6, 0b100101".toList =
      some ⟨0x02#8, [.number 0, .number 26, .number 6, .number 37]⟩ := by decide +kernel

theorem test_assemble_refuses :
    assemble [] "SET_CHANNEL 1.5, 3".toList = none ∧ assemble [] "SHOW 1".toList = none ∧
    assemble [] "CONSTRUCT 4, @bus0".toList = none := by decide +kernel

/-- Every mnemonic stands for the tag of its command. -/
theorem test_mnemonics_and_tags :
    ∀ i ∈ [Instr.construct 0 ⟨0⟩, .setField 0 0 0 0, .getField 0 0 0, .setChannel 0 0,
      .getChannel 0, .setAll 0, .setAllOff, .setBrightness 0 0 0,
      .setFunctionControl false false false false false, .showFrame, .deinit],
      tagOfMnemonic (mnemonic i).toList = some i.tag := by decide

theorem test_listing_tells_the_command :
    listing (fun _ => ['b']) .setAllOff = "SET_ALL_OFF".toList ∧
    listing (fun _ => ['b']) (.setAll 0) = "SET_ALL 0".toList ∧
    listing (fun _ => ['b']) (.setChannel (-1) (1 / 3)) = "SET_CHANNEL -1, 1/3".toList := by
  decide +kernel

/-! ### One step each, on CONSTRUCT 4 -/

/-- V-LC-01. -/
theorem test_construct : gives (.construct 4 ⟨0⟩) powered .ok (fun t =>
    t.block.chips == 1 && t.block.channels == 12 && t.block.frameLen == 28 &&
    t.block.lut == [4, 6, 8, 10, 12, 14, 16, 18, 20, 22, 24, 26] &&
    t.block.buf == [(0, 0x96#8), (1, 0xDF#8), (2, 0xFF#8), (3, 0xFF#8)] &&
    t.block.bus == .opened ⟨0⟩ && t.block.txlog == []) = true := by decide +kernel

/-- V-EX-06: the pixel count is checked before the bus is asked. -/
theorem test_construct_count_before_bus :
    gives (.construct 6 ⟨0⟩) powered (.err .badPixelCount) (fun t => t.port.asks == 0) = true := by
  decide +kernel

/-- V-BF-13. -/
theorem test_set_field : gives (.setField 4 0 16 0xABCD) four .ok (fun t =>
    t.block.frame.drop 3 == 0xFF#8 :: 0#8 :: 0#8 :: 0xAB#8 :: 0xCD#8 :: List.replicate 20 0#8) =
    true := by decide +kernel

/-- V-BF-12: the masked value 0 clears bits 6:3. -/
theorem test_set_field_truncates :
    gives (.setField 0 3 4 0x10) four .ok (fun t => hdr t == 0x96DFFF87#32) = true := by
  decide +kernel

/-- V-BF-15. -/
theorem test_get_field : gives (.getField 0 26 6) four (.value 37) (fun t => t.block == four.block) =
    true := by decide +kernel

/-- V-BF-26. -/
theorem test_get_field_refuses_width_33 :
    gives (.getField 0 0 33) four (.err .fieldGeometry) (fun t => t.block == four.block) = true := by
  decide +kernel

/-- V-CH-05: the tie 19660.5 goes to 19660 at offset 26. -/
theorem test_set_channel : gives (.setChannel 0 30) four .ok (fun t =>
    t.block.buf == four.block.buf ++ [(26, 0x4C#8), (27, 0xCC#8)]) = true := by decide +kernel

/-- V-CH-13: the index is checked before the value. -/
theorem test_set_channel_index_before_value :
    gives (.setChannel 12 200) four (.err .channelIndex) (fun t => t.block == four.block) = true := by
  decide +kernel

/-- V-CH-04: 8192 reads as 13 percent. -/
theorem test_get_channel :
    gives (.getChannel 5) (after [.setChannel 5 (25 / 2)] four) (.value 13) (fun _ => true) =
      true := by decide +kernel

/-- V-CH-15. -/
theorem test_get_channel_refuses_index :
    gives (.getChannel 12) four (.err .channelIndex) (fun t => t.block == four.block) = true := by
  decide +kernel

/-- V-CH-10. -/
theorem test_set_all : gives (.setAll 25) four .ok (fun t =>
    hdr t == 0x96DFFFFF#32 &&
    t.block.frame.drop 4 == (List.replicate 12 [0x40#8, 0x00#8]).flatten) = true := by
  decide +kernel

/-- V-CH-11. -/
theorem test_set_all_refuses_101 :
    gives (.setAll 101) four (.err .pwmValue) (fun t => t.block == four.block) = true := by
  decide +kernel

/-- V-CH-12. -/
theorem test_set_all_off :
    gives .setAllOff (after [.setAll 25] four) .ok (fun t => t.block == four.block) = true := by
  decide +kernel

/-- The header of V-CF-01, 0x96C28A1E, and R163: the scripted fault rolls nothing back. -/
theorem test_set_brightness : gives (.setBrightness 10 20 30) four (.err .transportFault) (fun t =>
    hdr t == 0x96C28A1E#32 && t.block.bcr == 10#7 && t.block.bcg == 20#7 && t.block.bcb == 30#7 &&
    t.block.txlog == [⟨t.block.frame, .fault⟩]) = true := by decide +kernel

/-- 42_config.md R162, corner cases: 128 stores 0, -1 stores 127, 255 stores 127. -/
theorem test_set_brightness_truncates :
    gives (.setBrightness 128 (-1) 255) four (.err .transportFault) (fun t =>
      t.block.bcr == 0#7 && t.block.bcg == 127#7 && t.block.bcb == 127#7) = true := by
  decide +kernel

/-- V-CF-04. -/
theorem test_set_function_control :
    gives (.setFunctionControl false true false false true) four .ok (fun t =>
      hdr t == 0x953FFFFF#32 && t.block.extgck && t.block.blank && t.block.txlog == []) = true := by
  decide +kernel

/-- V-LC-05's frame, with the first scripted answer, fault. -/
theorem test_show : gives .showFrame (after [.setChannel 0 100] four) (.err .transportFault)
    (fun t => t.block.txlog ==
      [⟨[0x96#8, 0xDF#8, 0xFF#8, 0xFF#8] ++ List.replicate 22 0#8 ++ [0xFF#8, 0xFF#8], .fault⟩]) =
    true := by decide +kernel

/-- V-LC-06: the second SHOW is answered ok. -/
theorem test_show_again : gives .showFrame (after [.showFrame] four) .ok (fun t =>
    t.block.txlog.map (·.outcome) == [.fault, .ok]) = true := by decide +kernel

/-- V-LC-12: the staged value is lost and nothing is transmitted. -/
theorem test_deinit : gives .deinit (after [.setChannel 0 100] four) .ok (fun t =>
    t.block.life == .released && t.block.bus == .closed && t.block.txlog == []) = true := by
  decide +kernel

/-- V-LC-09. -/
theorem test_deinit_twice :
    gives .deinit gone (.stopped (.fault .useAfterRelease)) (fun t =>
      t.block.halt == some (.fault .useAfterRelease)) = true := by decide +kernel

/-! ### The step -/

/-- 70_reset_and_hazards.md R231: with no command presented the block waits. -/
theorem test_step_waits : step State.reset = .next State.reset := by rfl

/-- V-EX-02: the tag check comes before the lifecycle check. -/
theorem test_step_refuses_tag : step (State.reset.withFetchWord 8 0x0C) =
    .next ((State.reset.withBlock (Block.powerOn.withHalt (.refused (.illegalCommand 0x0C#8)))).reply
      (.stopped (.refused (.illegalCommand 0x0C#8)))) := by rfl

/-- The exact binary64 value of 655.35 (41_channel.md R141). -/
theorem test_binary64_of_the_scale : roundBinary64 (65535 / 100) =
    6553500000000000227373675443232059478759765625 / 10 ^ 43 := by decide +kernel

/-- 41_channel.md R134, corner cases. -/
theorem test_pwm_to_percent_corners : pwmToPct 327#16 = 0 ∧ pwmToPct 328#16 = 1 ∧
    pwmToPct 983#16 = 1 ∧ pwmToPct 984#16 = 2 ∧ pwmToPct 65207#16 = 99 ∧
    pwmToPct 65208#16 = 100 ∧ pwmToPct 65535#16 = 100 := by decide +kernel

/-! ### Witnesses: the hypotheses of each statement, met -/

/-- Whether a command gives a next state. -/
def runs (i : Instr) (s : State) : Bool :=
  match exec i s with
  | .next _ => true
  | _ => false

theorem next_after {i : Instr} {s : State} (h : runs i s = true) :
    exec i s = .next (after [i] s) := by
  unfold runs at h
  unfold after execAll
  cases he : exec i s <;> simp_all [execAll]

/-- A stopped block. -/
def halted : State := after [.showFrame] State.reset

theorem test_witness_TagAloneSelectsTheCommand :
    (∃ r r' i i', decode r = .ok i ∧ decode r' = .ok i' ∧ r.tag = r'.tag ∧ i ≠ i') ∧
    (∃ r r' i i', decode r = .ok i ∧ decode r' = .ok i' ∧ r.tag ≠ r'.tag) :=
  ⟨⟨⟨0x05#8, [.number 0]⟩, ⟨0x05#8, [.number 1]⟩, .getChannel 0, .getChannel 1,
    by decide +kernel⟩, ⟨⟨0x0A#8, []⟩, ⟨0x0B#8, []⟩, .showFrame, .deinit, by decide⟩⟩

theorem test_witness_StepRunsTheDecodedCommand :
    (four.present (encode (.setField 0 14 7 128))).port.pending =
      [encode (.setField 0 14 7 128)] ∧
    decode (encode (.setField 0 14 7 128)) = .ok (.setField 0 14 7 128) := by decide +kernel

theorem test_witness_IllTypedRecordIsRefusedBeforeTheBlock :
    ∀ r ∈ [Record.mk 0x05#8 [.nonNumeric], ⟨0x05#8, []⟩],
      (four.present r).port.pending = [r] ∧ r.tag.legal ∧
      operandsFit r.tag.operandTypes r.operands = false := by decide +kernel

theorem test_witness_IllegalTagStopsTheBlock :
    ∀ r ∈ [Record.mk 0x00#8 [], ⟨0x0C#8, [.nonFinite]⟩, ⟨0xFF#8, []⟩],
      (four.present r).port.pending = [r] ∧ (r.tag = 0x00#8 ∨ 0x0C#8 ≤ r.tag) ∧
      (four.present r).block.halt = none := by decide +kernel

/-- A line that assembles, and a bus whose name the table gives back. -/
theorem test_witness_AssembledLinesAreCommands :
    (∃ r, assemble [("bus0".toList, ⟨7⟩)] "CONSTRUCT 4, @bus0".toList = some r) ∧
    List.lookup "bus0".toList [("bus0".toList, (⟨7⟩ : BusConfig))] = some ⟨7⟩ ∧
    ∀ ch ∈ "bus0".toList, ch ≠ ',' ∧ ch ≠ ' ' :=
  ⟨⟨_, test_assemble_bus_and_binary.1⟩, by decide +kernel, by simp⟩

theorem test_witness_ListingShowsTheCommand :
    listing (fun _ => ['b']) (.setField 0 26 6 37) =
      listing (fun _ => ['c']) (.setField 0 26 6 37) := by decide

/-- StepIsRefusedOnlyOnIllTypedRecords: both ways to be refused, in states of the invariant. -/
theorem test_witness_StepIsRefusedOnlyOnIllTypedRecords :
    (four.present ⟨0x05#8, [.nonNumeric]⟩).Inv ∧ (halted.present ⟨0x05#8, []⟩).Inv ∧
    step (four.present ⟨0x05#8, [.nonNumeric]⟩) = .refused (.notACommand (.operandType 0x05#8)) ∧
    step (halted.present ⟨0x05#8, []⟩) = .refused (.notACommand (.operandCount 0x05#8 0)) :=
  ⟨by decide +kernel, by decide +kernel, rfl, rfl⟩

/-- StepKeepsTheInvariant, ParametersNeverChange and StepIsRefusedOnlyOnIllTypedRecords. -/
theorem test_witness_StepKeepsTheInvariant :
    (four.present (encode .showFrame)).Inv ∧
    ∃ t, step (four.present (encode .showFrame)) = .next t :=
  ⟨by decide +kernel, _, next_after (i := .showFrame) (s := four) (by decide +kernel)⟩

/-- EveryCommandCompletes, in each lifecycle state. -/
theorem test_witness_EveryCommandCompletes :
    four.Inv ∧ gone.Inv ∧ halted.Inv ∧ State.reset.Inv :=
  ⟨by decide +kernel, by decide +kernel, by decide +kernel, by decide +kernel⟩

/-- EveryCommandReturnsOneResult, StateElementsHaveTheirWriters and
LifecycleMovesOnlyByConstructAndDeinit: a command of each clause gives a next state. -/
theorem test_witness_StateElementsHaveTheirWriters :
    ∀ i ∈ [Instr.setField 0 0 32 0, .getField 0 0 32, .setChannel 11 50, .getChannel 0, .setAll 1,
      .setAllOff, .setBrightness 1 2 3, .setFunctionControl true true true true true, .showFrame],
      (exec i four = .next (after [i] four)) ∧ i.tag ≠ 0x01#8 ∧ i.tag ≠ 0x0B#8 := by
  intro i hi
  refine ⟨next_after ?_, ?_⟩ <;> revert i <;> decide +kernel

/-- StateElementsHaveTheirWriters: a command that sets the stop. -/
theorem test_witness_halt_is_written :
    State.reset.block.halt = none ∧ exec .showFrame State.reset = .next halted ∧
    halted.block.halt = some (.fault .notConfigured) :=
  ⟨rfl, next_after (by decide +kernel), by decide +kernel⟩

theorem test_witness_LifecycleMoves :
    exec (.construct 4 ⟨0⟩) powered = .next four ∧
    exec .deinit four = .next (after [.deinit] four) ∧
    exec (.construct 4 ⟨1⟩) gone = .next (after [.construct 4 ⟨1⟩] gone) :=
  ⟨next_after (by decide +kernel), next_after (by decide +kernel), next_after (by decide +kernel)⟩

theorem test_witness_TransmitLogOnlyGrowsByShows :
    exec .showFrame four = .next (after [.showFrame] four) ∧
    exec (.setBrightness 1 2 3) four = .next (after [.setBrightness 1 2 3] four) :=
  ⟨next_after (by decide +kernel), next_after (by decide +kernel)⟩

/-- RejectedCallsChangeNothing and ErrorsComeFromTheirCommands: every error is raised. -/
theorem test_witness_ErrorsComeFromTheirCommands :
    gives (.construct 6 ⟨0⟩) powered (.err .badPixelCount) (fun _ => true) ∧
    gives (.construct 4 ⟨0⟩) (powered.withPort { powered.port with busOpenScript := [.fail] })
      (.err .busOpenFailed) (fun _ => true) ∧
    gives (.setChannel (-1) 0) four (.err .channelIndex) (fun _ => true) ∧
    gives (.getChannel 12) four (.err .channelIndex) (fun _ => true) ∧
    gives (.setAll 101) four (.err .pwmValue) (fun _ => true) ∧
    gives (.setField 25 0 8 1) four (.err .fieldGeometry) (fun _ => true) ∧
    gives .showFrame four (.err .transportFault) (fun _ => true) := by decide +kernel

theorem test_witness_StopIsSticky :
    halted.block.halt = some (.fault .notConfigured) ∧
    (halted.present ⟨0x00#8, []⟩).port.pending = [⟨0x00#8, []⟩] ∧ ¬ Tag.legal 0x00#8 := by
  decide +kernel

theorem test_witness_CommandsOutsideTheirLifecycleStopTheBlock :
    (State.reset.block.halt = none ∧ State.reset.block.life = .unconfigured) ∧
    (gone.block.halt = none ∧ gone.block.life = .released) ∧
    (four.block.halt = none ∧ four.block.life = .ready) ∧
    Instr.showFrame.tag ≠ 0x01#8 ∧ (Instr.construct 4 ⟨0⟩).tag = 0x01#8 := by decide +kernel

/-- ChannelReversalIsAnInvolution, HeaderRewritesEqualOneFieldWrite and every statement over a
running driver: the first and the last channel, and the only chip. -/
theorem test_witness_running :
    four.Running ∧ four.Inv ∧ four.block.channels = 12 ∧ four.block.chips = 1 ∧
    four.block.frameLen = 28 ∧ four.block.bus = .opened ⟨0⟩ := by decide +kernel

theorem test_witness_ChannelOffsetsFillTheSlotAreas :
    (0 < 12 * 1 ∧ channelOffset 0 = 4) ∧ (11 < 12 * 1 ∧ channelOffset 11 = 26) ∧
    (4 < 28 * 1 ∧ 4 ≤ 4 % 28 ∧ 4 % 2 = 0) ∧ (26 < 28 * 1 ∧ 4 ≤ 26 % 28 ∧ 26 % 2 = 0) := by decide

theorem test_witness_HeadersKeepAgreeingWithTheRegisters :
    four.Inv ∧ four.HeadersAgree ∧ (Instr.setBrightness 1 2 3).tag ≠ 0x02#8 ∧
    exec (.setBrightness 1 2 3) four = .next (after [.setBrightness 1 2 3] four) :=
  ⟨by decide +kernel, by decide +kernel, by decide, next_after (by decide +kernel)⟩

/-- WriteCommandBitsLast: header bits 31:26 hold 0 after a SET_FIELD, and SET_BRIGHTNESS runs. -/
theorem test_witness_WriteCommandBitsLast :
    (after [.setField 0 26 6 0] four).Inv ∧ hdr (after [.setField 0 26 6 0] four) = 0x02DFFFFF#32 ∧
    runs (.setBrightness 1 2 3) (after [.setField 0 26 6 0] four) = true := by decide +kernel

/-- SetFieldWritesExactlyTheField, GetFieldReturnsTheField, FieldGeometryIsChecked: the last offset
with the widest field, the highest bit with an empty one, and the first geometry past each. -/
theorem test_witness_field_geometry :
    fieldOK four.block.frameLen 24 0 32 ∧ fieldOK four.block.frameLen 0 32 0 ∧
    ¬ fieldOK four.block.frameLen 25 0 32 ∧ ¬ fieldOK four.block.frameLen 0 32 1 ∧
    ¬ fieldOK four.block.frameLen (-1) 0 1 ∧ ¬ fieldOK four.block.frameLen 0 (-1) 1 ∧
    ¬ fieldOK four.block.frameLen 0 0 (-1) := by decide +kernel

/-- ZeroWidthFieldIsEmpty and DisjointSetFieldsCommute: neighbouring fields that fill a word. -/
theorem test_witness_DisjointSetFieldsCommute :
    four.Running ∧ four.Inv ∧ (0 : Int) ≤ 24 ∧ (24 : Int) + 4 ≤ four.block.frameLen ∧
    (0 : Int) ≤ 0 ∧ (0 : Int) ≤ 21 ∧ (0 : Int) + 21 ≤ 21 ∧ (0 : Int) ≤ 11 ∧ (21 : Int) + 11 ≤ 32 ∧
    (0 : Int) ≤ 32 ∧ (32 : Int) ≤ 32 := by decide +kernel

/-- RoundingIsHalfToEven: a tie. -/
theorem test_witness_RoundingIsHalfToEven : |(5 / 2 : Rat) - roundHE (5 / 2)| = 1 / 2 := by
  decide +kernel

/-- AcceptedPercentInterval, SetChannelStoresThePwmValue and SetAllStoresEveryChannel: V-CH-09, both
ends of the accepted percents and the first percent past each, on the first and the last
channel. -/
theorem test_witness_SetChannelStoresThePwmValue :
    four.Running ∧ four.Inv ∧ channelOK four.block.channels 0 ∧ channelOK four.block.channels 11 ∧
    ¬ channelOK four.block.channels 12 ∧ ¬ channelOK four.block.channels (-1) ∧
    pwmOK (pctToPwm four.config.conversion (-50 / 65535)) ∧
    ¬ pwmOK (pctToPwm four.config.conversion (-51 / 65535)) ∧
    pwmOK (pctToPwm four.config.conversion (6553549 / 65535)) ∧
    ¬ pwmOK (pctToPwm four.config.conversion (6553550 / 65535)) := by decide +kernel

theorem test_witness_ChannelRoundTrip :
    four.Running ∧ four.Inv ∧ four.config.conversion = .exactHalfEven ∧
    (0 : Int) ≤ 11 ∧ (11 : Int) < four.block.channels ∧ (0 : Rat) ≤ 0 ∧ (0 : Rat) ≤ 100 ∧
    (0 : Rat) ≤ 25 / 2 ∧ (25 / 2 : Rat) ≤ 100 ∧ (100 : Rat).den = 1 := by decide +kernel

theorem test_witness_ChannelsDoNotInterfere :
    four.Running ∧ four.Inv ∧ (0 : Int) ≤ 11 ∧ (11 : Int) < four.block.channels ∧ (0 : Int) ≠ 11 ∧
    exec (.setChannel 0 100) four = .next (after [.setChannel 0 100] four) :=
  ⟨by decide +kernel, by decide +kernel, by decide, by decide +kernel, by decide,
    next_after (by decide +kernel)⟩

/-- StagingCommandsAreIdempotent: a command of each clause, twice. -/
theorem test_witness_StagingCommandsAreIdempotent :
    ∀ i ∈ [Instr.setField 0 14 7 5, .setChannel 0 1, .setAll 1, .setAllOff,
      .setFunctionControl true true true true true, .setBrightness 1 2 3, .showFrame],
      exec i four = .next (after [i] four) ∧
      exec i (after [i] four) = .next (after [i] (after [i] four)) := by
  intro i hi
  refine ⟨next_after ?_, next_after ?_⟩ <;> revert i <;> decide +kernel

/-- ConstructBuildsTheDriver and ConstructReportsABusThatDoesNotOpen, at power-on and after a
release: the smallest pixel count. -/
theorem test_witness_ConstructBuildsTheDriver :
    (powered.block.halt = none ∧ powered.block.life ≠ .ready ∧ powered.config.maxPixels = none ∧
      (0 : Int) < 4 ∧ (4 : Int) % 4 = 0 ∧ (powered.port.askBusOpen ⟨0⟩).1 = .ok ∧
      powered.config.writeCmd = 0b100101#6 ∧ powered.config.bcrDefault = 127#7 ∧
      powered.config.bcgDefault = 127#7 ∧ powered.config.bcbDefault = 127#7) ∧
    (gone.block.halt = none ∧ gone.block.life ≠ .ready ∧ gone.config.maxPixels = none ∧
      (gone.port.askBusOpen ⟨0⟩).1 = .ok) ∧
    ((powered.withPort { powered.port with busOpenScript := [.fail] }).port.askBusOpen ⟨0⟩).1 =
      .fail := by decide +kernel

/-- ConstructChecksThePixelCount: with MAX_PIXELS 8, the counts 8, 9 and 10 (V-EX-07). -/
theorem test_witness_ConstructChecksThePixelCount :
    gives (.construct 10 ⟨0⟩) { powered with config := { maxPixels := some 8 } }
      (.stopped (.refused (.capacityExceeded 10))) (fun _ => true) ∧
    gives (.construct 9 ⟨0⟩) { powered with config := { maxPixels := some 8 } }
      (.stopped (.refused (.capacityExceeded 9))) (fun _ => true) ∧
    gives (.construct 8 ⟨0⟩) { powered with config := { maxPixels := some 8 } } .ok (fun _ => true) ∧
    gives (.construct 7 ⟨0⟩) { powered with config := { maxPixels := some 8 } }
      (.err .badPixelCount) (fun _ => true) := by decide +kernel

theorem test_witness_FreshChannelsReadZero :
    exec (.construct 4 ⟨0⟩) powered = .next four ∧ four.block.life = .ready ∧
    (0 : Int) ≤ 11 ∧ (11 : Int) < four.block.channels :=
  ⟨next_after (by decide +kernel), by decide +kernel, by decide, by decide +kernel⟩

/-- ShowTransmitsTheWholeFrame, SetBrightnessRewritesAndTransmits and FaultedShowCanBeRetried. -/
theorem test_witness_FaultedShowCanBeRetried :
    four.Running ∧ four.block.bus = .opened ⟨0⟩ ∧
    (four.port.askTransmit ⟨0⟩ four.block.frame).1 = .fault := by decide +kernel

/-- ReconstructionForgetsTheOldDriver: two drivers with other buffers and one log. -/
theorem test_witness_ReconstructionForgetsTheOldDriver :
    (after [.setAll 25] four).Running ∧ four.Running ∧
    (after [.setAll 25] four).block ≠ four.block ∧
    (after [.setAll 25] four).config = four.config ∧
    (after [.setAll 25] four).block.txlog = four.block.txlog ∧
    (after [.deinit, .construct 8 ⟨1⟩] four).block.life = .ready ∧
    (after [.deinit, .construct 8 ⟨1⟩] (after [.setAll 25] four)).block.life = .ready := by
  decide +kernel

theorem test_witness_UseAfterReleaseStopsForGood :
    four.Running ∧ (Instr.setChannel 99 500).tag ≠ 0x01#8 := by decide +kernel

end Sys2Proof.Tests
end

section
/-! The rules of 00_scope.md: rounding half to even (R13), and the geometry and the chip images that
CONSTRUCT makes (R10, 70_reset_and_hazards.md R232). -/

namespace Sys2Proof.Machine

/-! ### Rounding -/

/-- An integer nearer than RoundHE's would lie within one half, and RoundHE gives the only one that
does. -/
theorem roundHE_nearest (q : Rat) (k : Int) : |q - roundHE q| ≤ |q - k| := by
  by_contra hk
  have hlt : |q - k| < |q - roundHE q| := not_le.mp hk
  have hnear : roundHE q = k := roundHE_eq_of_near (hlt.trans_le (roundHE_spec q).1)
  rw [hnear] at hlt
  exact lt_irrefl _ hlt

/-- Settles O37: `roundHE_nearest`, the tie clause of `roundHE_spec`, and R13's examples
evaluated. -/
theorem roundingIsHalfToEven : Obligations.RoundingIsHalfToEven := by
  unfold Obligations.RoundingIsHalfToEven
  exact ⟨fun q => ⟨roundHE_nearest q, (roundHE_spec q).2⟩, by decide +kernel, rfl⟩

/-! ### The driver that CONSTRUCT builds -/

/-- The counts of 00_scope.md R10 agree for a whole number of chips. -/
theorem channelCount_eq_chips {n : Nat} (h : n % 4 = 0) : channelCount n = 12 * chipCount n := by
  unfold channelCount chipCount; omega

/-- The flags that CONSTRUCT sets (70_reset_and_hazards.md R232). -/
theorem fcField_default : fcField true false true true false = 0b10110#5 := by decide

theorem fresh_registerHeader (cfg : Config) (n : Nat) (bus : BusConfig) (b : Block) :
    (Block.fresh cfg n bus b).registerHeader cfg.writeCmd =
      headerWord cfg.writeCmd 0b10110#5 (bcField cfg.bcrDefault cfg.bcgDefault cfg.bcbDefault) := by
  simp [Block.registerHeader, fcField_default]

theorem headerWord_default :
    headerWord 0b100101#6 0b10110#5 (bcField 127#7 127#7 127#7) = 0x96DFFFFF#32 := by decide

theorem Port.askBusOpen_transmitScript (cfg : BusConfig) (p : Port) :
    (p.askBusOpen cfg).2.transmitScript = p.transmitScript := by
  rw [Port.askBusOpen_snd]

/-- Settles O52: the checks pass, the fresh block supplies geometry, table and registers, and the
loop over the chips writes every header in the zero buffer. -/
theorem constructBuildsTheDriver : Obligations.ConstructBuildsTheDriver := by
  unfold Obligations.ConstructBuildsTheDriver
  intro p cfg s hhalt hlife hcap hpos hmod hopen
  obtain ⟨m, hexec, hrewritten⟩ := execConstruct_ok hhalt hlife hcap ⟨hpos, hmod⟩ hopen
  have hheader : ∀ c, c < chipCount p.toNat → m.read32 (headerOffset c) =
      headerWord s.config.writeCmd 0b10110#5
        (bcField s.config.bcrDefault s.config.bcgDefault s.config.bcbDefault) :=
    fun c hc => (hrewritten.header c hc).trans (fresh_registerHeader ..)
  refine ⟨_, hexec, ⟨Int.toNat_of_nonneg hpos.le, rfl, rfl, channelCount_eq_chips (by omega), rfl⟩,
    ⟨by simp [lookupTable], fun j hj => lookupTable_getElem? hj⟩, hheader, ?defaults,
    hrewritten.other, ⟨rfl, rfl, rfl⟩, ⟨rfl, rfl, rfl, rfl, rfl⟩, rfl, rfl, hhalt, rfl, rfl, rfl,
    Port.askBusOpen_transmitScript cfg s.port⟩
  case defaults =>
    intro hwc hr hg hb c hc
    refine (hheader c hc).trans ?_
    rw [hwc, hr, hg, hb, headerWord_default]

end Sys2Proof.Machine
end

section
/-! The transmit log (10_state.md R33): a stop leaves it, a transmission appends the frame, and no
other command touches it. -/

namespace Sys2Proof.Machine

/-- A stop answered or taken writes the sticky stop at most. -/
theorem StopTaken.txlog_eq {s t : State} (h : StopTaken s t) : t.block.txlog = s.block.txlog := by
  obtain ⟨stop, -, rfl⟩ | ⟨-, stop, rfl⟩ := h
  · rw [State.reply_block]
  · rw [State.reply_block, State.withBlock_block, Block.withHalt_txlog]

@[simp] theorem State.afterEmit_block (cfg : BusConfig) (s : State) :
    (s.afterEmit cfg).block = s.block.logTransmission
      ⟨s.block.frame, (s.port.askTransmit cfg s.block.frame).1⟩ := rfl

/-- The entry a transmission appends holds the L bytes of the buffer (43_lifecycle.md R186). -/
theorem State.afterEmit_logs_buffer (cfg : BusConfig) (s : State) :
    ∃ e : Transmission, (s.afterEmit cfg).block.txlog = s.block.txlog ++ [e] ∧
      e.bytes.length = (s.afterEmit cfg).block.frameLen ∧
      ∀ k, k < (s.afterEmit cfg).block.frameLen →
        e.bytes[k]? = some ((s.afterEmit cfg).block.buf.read k) := by
  rw [State.afterEmit_block]
  exact ⟨_, Block.logTransmission_txlog .., Memory.bytes_length ..,
    fun _ hk => Memory.bytes_getElem? _ hk⟩

/-- Settles O18, one case for each thing a command can do. SET_BRIGHTNESS transmits from a block with
other registers and another buffer, whose log is still that of the state before. -/
theorem transmitLogOnlyGrowsByShows : Obligations.TransmitLogOnlyGrowsByShows := by
  unfold Obligations.TransmitLogOnlyGrowsByShows
  refine ⟨rfl, fun i s t h => ?_⟩
  cases exec_did h with
  | stop hstop => exact .inl hstop.txlog_eq
  | shown _ hi cfg => exact .inr ⟨.inl hi, s.afterEmit_logs_buffer cfg⟩
  | brightness _ hi r g b m cfg =>
    exact .inr ⟨.inr hi, State.afterEmit_logs_buffer cfg
      (s.withBlock ((s.block.withBrightness r g b).withBuf m))⟩
  | value | reject | rejectOpen | buffer | functionControl | released | built => exact .inl rfl

end Sys2Proof.Machine
end

section
/-! The rules of 30_encoding.md: what a record that decodes must be, and the tag table read from
mnemonics to tags and from tags to mnemonics (R92, R93). -/

namespace Sys2Proof

/-! ### A record that decodes -/

/-- Each arm of the decoder reads its operands by the types of its tag, and a reader gives a value
only of the operand that encodes it (R93, R94). -/
theorem decodeOperands_eq_some {tag : Tag} {xs : List Operand} {i : Instr}
    (h : decodeOperands tag xs = some i) : tag = i.tag ∧ xs = i.operands := by
  unfold decodeOperands at h
  split at h
  case h_12 => contradiction
  all_goals
    next htag =>
    simp only [bind, pure, Option.bind_eq_some_iff, Option.some.injEq, Operand.int?_eq_some,
      Operand.rat?_eq_some, Operand.bus?_eq_some, Operand.bool?_eq_some] at h
    refine ⟨BitVec.eq_of_toNat_eq ?_, ?_⟩ <;> grind [Instr.tag, Instr.operands]

/-- A record that decodes is the encoding of the command it gives. -/
theorem eq_encode_of_decode {r : Record} {i : Instr} (h : decode r = .ok i) : r = encode i := by
  unfold decode at h
  split at h
  case isFalse => contradiction
  split at h
  case h_1 hops =>
    obtain rfl := Except.ok.inj h
    obtain ⟨htag, hxs⟩ := decodeOperands_eq_some hops
    exact congrArg₂ Record.mk htag hxs
  case h_2 => split at h <;> contradiction

/-- Every command's encoding fits its tag: the per-command lemmas in one. -/
theorem encode_fits : ∀ i : Instr, Laws.EncodingFits.Statement i
  | .construct p c => Laws.EncodingFits.construct p c
  | .setField o b w v => Laws.EncodingFits.setField o b w v
  | .getField o b w => Laws.EncodingFits.getField o b w
  | .setChannel i p => Laws.EncodingFits.setChannel i p
  | .getChannel i => Laws.EncodingFits.getChannel i
  | .setAll p => Laws.EncodingFits.setAll p
  | .setAllOff => Laws.EncodingFits.setAllOff
  | .setBrightness r g b => Laws.EncodingFits.setBrightness r g b
  | .setFunctionControl ot eg tr dr bl => Laws.EncodingFits.setFunctionControl ot eg tr dr bl
  | .showFrame => Laws.EncodingFits.showFrame
  | .deinit => Laws.EncodingFits.deinit

/-- The operands of a record that decodes are as many as its tag requires (R91). -/
theorem operands_length_of_decode {r : Record} {i : Instr} (h : decode r = .ok i) :
    r.operands.length = r.tag.operandTypes.length :=
  eq_encode_of_decode h ▸ (encode_fits i).2

end Sys2Proof

namespace Sys2Proof.Machine

/-! ### The tag table, by mnemonic and by tag -/

@[simp] theorem tagOfMnemonic_mnemonic (i : Instr) :
    tagOfMnemonic (mnemonic i).toList = some i.tag := by
  cases i <;> simp only [mnemonic, Instr.tag] <;> decide

/-- The first row of the tag table with a command's tag names the command's mnemonic (R93). -/
theorem mnemonicTable_find_tag (i : Instr) :
    (mnemonicTable.find? fun row => row.2 == i.tag).map (·.1) = some (mnemonic i) := by
  cases i <;> rfl

/-- Tags and mnemonics name the same commands: the tag table is read both ways. -/
theorem tag_eq_iff_mnemonic_eq {i i' : Instr} : i.tag = i'.tag ↔ mnemonic i = mnemonic i' := by
  refine ⟨fun h => Option.some.inj ?_, fun h => Option.some.inj ?_⟩
  · rw [← mnemonicTable_find_tag i, h, mnemonicTable_find_tag i']
  · rw [← tagOfMnemonic_mnemonic i, h, tagOfMnemonic_mnemonic i']

/-- Settles O3: a record that decodes is an encoding, so its tag is its command's, the tag table
turns equal tags into equal mnemonics and back, and the tag alone fixes the number of operands. -/
theorem tagAloneSelectsTheCommand : Obligations.TagAloneSelectsTheCommand := by
  unfold Obligations.TagAloneSelectsTheCommand
  intro r r' i i' h h'
  have htag : r.tag = i.tag := congrArg Record.tag (eq_encode_of_decode h)
  have htag' : r'.tag = i'.tag := congrArg Record.tag (eq_encode_of_decode h')
  refine ⟨?commands, fun heq => ?length⟩
  case commands => rw [htag, htag', tag_eq_iff_mnemonic_eq]
  case length => rw [operands_length_of_decode h, operands_length_of_decode h', heq]

end Sys2Proof.Machine
end

section
/-! The rules of 40_bitfield.md: what SET_FIELD writes and leaves (R112, R116), and when the two
commands are rejected (R111). -/

namespace Sys2Proof.Machine

theorem exec_setField (o b w v : Int) (s : State) :
    exec (.setField o b w v) s = execSetField o b w v s := rfl

theorem exec_getField (o b w : Int) (s : State) :
    exec (.getField o b w) s = execGetField o b w s := rfl

/-! ### The field written -/

/-- The inserted field reads back as the value's low bits, as an integer (40_bitfield.md R116). -/
theorem extractField_insertField_cast (word : Word) {b w : Nat} (v : Int) (h : b + w ≤ 32) :
    (extractField (insertField word b w v) b w : Int) = v % 2 ^ w := by
  rw [extractField_insertField word v h, truncBits_cast]

/-- The codec keeps every bit of the word outside the field (40_bitfield.md R112). -/
theorem insertField_getLsbD_of_outside (word : Word) {b w k : Nat} (v : Int)
    (h : k < b ∨ b + w ≤ k) : (insertField word b w v).getLsbD k = word.getLsbD k := by
  rw [insertField_getLsbD, if_neg (by omega)]

/-- Settles O32: the command stores one word, which reads back as the codec's word. The field, the
other bits and the other bytes follow from the laws of that word and of the store. -/
theorem setFieldWritesExactlyTheField : Obligations.SetFieldWritesExactlyTheField := by
  unfold Obligations.SetFieldWritesExactlyTheField
  intro o b w v s hrun ⟨hwf, _⟩ ho hlen hb hw hbw
  refine ⟨_, execSetField_ok hrun ⟨ho, hlen, hb, hw, hbw⟩, ?_⟩
  simp only [State.reply_block, State.withBlock_block, Block.withBuf_buf,
    Memory.read32_write32 hwf]
  exact ⟨extractField_insertField_cast _ v (by omega),
    fun _ => insertField_getLsbD_of_outside _ v,
    fun _ => Memory.read_write32_of_outside, rfl, rfl, rfl⟩

/-! ### The geometry check -/

/-- The result port tells results apart, whatever was written to the block meanwhile. -/
theorem State.result_eq_of_reply_eq {s s' : State} {r r' : Result}
    (hport : s.port.results = s'.port.results) (h : s.reply r = s'.reply r') : r = r' := by
  have hresults : s.port.results ++ [r] = s'.port.results ++ [r'] :=
    congrArg (fun t : State => t.port.results) h
  rw [hport] at hresults
  exact List.singleton_inj.mp (List.append_cancel_left hresults)

theorem commit_ok_ne_reply_err (b : Except Fault Block) (e : CallError) (s : State) :
    commit b .ok s ≠ .next (s.reply (.err e)) := by
  intro h
  obtain ⟨b', -, heq⟩ := commit_next h
  cases State.result_eq_of_reply_eq (by rw [State.withBlock_port]) heq

theorem commitValue_ne_reply_err (n : Except Fault Int) (e : CallError) (s : State) :
    commitValue n s ≠ .next (s.reply (.err e)) := by
  intro h
  obtain ⟨m, -, heq⟩ := commitValue_next h
  cases State.result_eq_of_reply_eq rfl heq

/-- A command that checks one condition before a body that never ends in `e` is rejected with `e`
exactly when the condition fails. -/
theorem commonChecks_guard_rejects_iff {s : State} (hrun : s.Running) {c : Prop} [Decidable c]
    {body : Outcome} {e : CallError} (hbody : body ≠ .next (s.reply (.err e))) :
    commonChecks s (if c then body else raise e s) = .next (s.reply (.err e)) ↔ ¬ c := by
  rw [commonChecks_running hrun]
  split
  · next hc => exact iff_of_false hbody (not_not_intro hc)
  · next hc => exact iff_of_true rfl hc

/-- Settles O33: both commands check the geometry before a body that returns Ok or a value, so they
are rejected exactly when the check fails. -/
theorem fieldGeometryIsChecked : Obligations.FieldGeometryIsChecked := by
  unfold Obligations.FieldGeometryIsChecked
  intro o b w v s hrun
  refine ⟨?setField, ?getField, fun ⟨_, _, _⟩ => by omega⟩
  case setField =>
    rw [exec_setField, execSetField]
    exact commonChecks_guard_rejects_iff hrun (commit_ok_ne_reply_err _ _ _)
  case getField =>
    rw [exec_getField, execGetField]
    exact commonChecks_guard_rejects_iff hrun (commitValue_ne_reply_err _ _ _)

end Sys2Proof.Machine
end

section
/-! The rules of 41_channel.md: one channel written and read through the table (R133, R134), and
every channel set to zero (R136). -/

namespace Sys2Proof.Machine

theorem exec_setChannel (i : Int) (p : Rat) (s : State) :
    exec (.setChannel i p) s = execSetChannel i p s := rfl

theorem exec_getChannel (i : Int) (s : State) : exec (.getChannel i) s = execGetChannel i s := rfl

theorem exec_setAll (p : Rat) (s : State) : exec (.setAll p) s = execSetAll p s := rfl

theorem exec_setAllOff (s : State) : exec .setAllOff s = execSetAllOff s := rfl

/-! ### Rejections, in the order of the checks -/

theorem execSetChannel_of_index_bad {i : Int} {s : State} (p : Rat) (hrun : s.Running)
    (hi : ¬ channelOK s.block.channels i) :
    execSetChannel i p s = .next (s.reply (.err .channelIndex)) := by
  rw [execSetChannel, commonChecks_running hrun, if_neg hi, raise]

theorem execSetChannel_of_value_bad {i : Int} {p : Rat} {s : State} (hrun : s.Running)
    (hi : channelOK s.block.channels i) (hp : ¬ pwmOK (pctToPwm s.config.conversion p)) :
    execSetChannel i p s = .next (s.reply (.err .pwmValue)) := by
  rw [execSetChannel, commonChecks_running hrun, if_pos hi]
  exact if_neg hp

theorem execGetChannel_of_index_bad {i : Int} {s : State} (hrun : s.Running)
    (hi : ¬ channelOK s.block.channels i) :
    execGetChannel i s = .next (s.reply (.err .channelIndex)) := by
  rw [execGetChannel, commonChecks_running hrun, if_neg hi, raise]

/-! ### One channel -/

/-- The offset SET_CHANNEL writes and GET_CHANNEL reads (41_channel.md R130). -/
theorem State.Running.channelSlot_ok {s : State} (hrun : s.Running) (hinv : s.Inv) {i : Int}
    (hi : channelOK s.block.channels i) :
    s.block.channelSlot i = .ok (channelOffset (s.block.channels - 1 - i.toNat)) :=
  Machine.channelSlot_ok (hrun.driverOK hinv).channelsOK hi.1 hi.2

/-- A value that passes the check fits a slot, so the slot holds it whole (41_channel.md R131). -/
theorem toNat_ofInt_of_pwmOK {v : Int} (h : pwmOK v) : ((BitVec.ofInt 16 v).toNat : Int) = v := by
  obtain ⟨h0, h1⟩ := h
  rw [BitVec.toNat_ofInt]
  omega

/-- Settles O41: the two checks in order, and past them one store at the reversed channel's slot,
which reads back as the converted percent because that fits 16 bits. -/
theorem setChannelStoresThePwmValue : Obligations.SetChannelStoresThePwmValue := by
  unfold Obligations.SetChannelStoresThePwmValue
  intro i p s hrun hinv
  simp only [exec_setChannel]
  refine ⟨execSetChannel_of_index_bad p hrun, execSetChannel_of_value_bad hrun,
    fun hi hp => ?stored⟩
  case stored =>
    have hvalue (a : Nat) : (((s.block.buf.write16 a
        (BitVec.ofInt 16 (pctToPwm s.config.conversion p))).read16 a).toNat : Int) =
          pctToPwm s.config.conversion p := by
      rw [Memory.read16_write16 hinv.1, toNat_ofInt_of_pwmOK hp]
    refine ⟨_, _, execSetChannel_ok hrun hinv hi.1 hi.2 hp, hrun.channelSlot_ok hinv hi, rfl,
      hvalue _, fun hdefault => (hvalue _).trans ?_,
      fun _ => Memory.read_write16_of_outside, rfl, rfl, rfl⟩
    rw [hdefault, pctToPwm]

/-- Settles O42: past the index check the command replies the percent of the slot it reads, at the
offset that SET_CHANNEL writes. -/
theorem getChannelReturnsThePercent : Obligations.GetChannelReturnsThePercent := by
  unfold Obligations.GetChannelReturnsThePercent
  intro i s hrun hinv
  simp only [exec_getChannel]
  exact ⟨execGetChannel_of_index_bad hrun, fun hi =>
    ⟨_, hrun.channelSlot_ok hinv hi, rfl, execGetChannel_ok hrun hinv hi.1 hi.2⟩⟩

/-! ### Every channel -/

theorem roundBinary64_zero : roundBinary64 0 = 0 := if_pos rfl

theorem roundHE_zero : roundHE 0 = 0 := roundHE_intCast 0

/-- No light is the value 0 under either conversion (41_channel.md R136). -/
theorem pctToPwm_zero (conversion : PercentConversion) : pctToPwm conversion 0 = 0 := by
  cases conversion with
  | exactHalfEven => rw [pctToPwm, zero_mul, zero_div, roundHE_zero]
  | binary64 => rw [pctToPwm, roundBinary64_zero, zero_mul, roundBinary64_zero, roundHE_zero]

/-- SET_ALL 0 runs as SET_ALL_OFF does, in every state: its value 0 passes the check. -/
theorem execSetAll_zero (s : State) : execSetAll 0 s = execSetAllOff s := by
  rw [execSetAll, execSetAllOff, pctToPwm_zero]
  exact congrArg (commonChecks s) (if_pos (by decide))

/-- Settles O47: SET_ALL 0 is SET_ALL_OFF, whose loop writes the slots of all channels and nothing
outside them. -/
theorem setAllOffStoresZeroEverywhere : Obligations.SetAllOffStoresZeroEverywhere := by
  unfold Obligations.SetAllOffStoresZeroEverywhere
  intro s hrun hinv
  simp only [exec_setAll, exec_setAllOff, execSetAll_zero]
  obtain ⟨m, hoff, hwritten⟩ := execSetAllOff_ok hrun hinv
  exact ⟨_, hoff, hoff, hwritten.slot, hwritten.other, fun c _ => hwritten.header c, rfl, rfl, rfl⟩

end Sys2Proof.Machine
end

section
/-! The rules of 42_config.md: both commands rewrite every header from the registers they store
(R162, R164), and SET_BRIGHTNESS alone transmits (R165). -/

namespace Sys2Proof.Machine

/-- A brightness register holds its operand's low 7 bits (42_config.md R162). -/
theorem truncBrightness_toNat_cast (v : Int) : ((truncBrightness v).toNat : Int) = v % 128 := by
  rw [truncBrightness, BitVec.toNat_ofNat, Nat.mod_eq_of_lt (truncBits_lt 7 v), truncBits_cast]
  rfl

/-- A transmission moves the port on by one `Transmit` question and its result. -/
theorem State.afterEmit_port (cfg : BusConfig) (s : State) :
    (s.afterEmit cfg).port = ((s.withPort (s.port.askTransmit cfg s.block.frame).2).reply
      (transmitResult (s.port.askTransmit cfg s.block.frame).1)).port := rfl

theorem State.afterEmit_asks (cfg : BusConfig) (s : State) :
    (s.afterEmit cfg).port.asks = s.port.asks + 1 := by
  rw [State.afterEmit_port, State.reply_port, State.withPort_port, Port.askTransmit_snd]

theorem State.afterEmit_txlog_length (cfg : BusConfig) (s : State) :
    (s.afterEmit cfg).block.txlog.length = s.block.txlog.length + 1 := by
  rw [State.afterEmit_block, Block.logTransmission_txlog, List.length_append,
    List.length_singleton]

/-- A running driver holds an open bus (10_state.md R30). -/
theorem State.Running.bus_opened {s : State} (hrun : s.Running) (hinv : s.Inv) :
    ∃ cfg, s.block.bus = .opened cfg := by
  obtain ⟨-, -, -, -, -, -, hbus⟩ := hrun.driverOK hinv
  cases h : s.block.bus with
  | closed => exact absurd h hbus
  | opened cfg => exact ⟨cfg, rfl⟩

/-- Settles O49: the loop over the chips rewrites every header from the new flags and leaves every
other byte, and the command ends by replying Ok on an otherwise unchanged port. -/
theorem setFunctionControlRewritesWithoutTransmitting :
    Obligations.SetFunctionControlRewritesWithoutTransmitting := by
  unfold Obligations.SetFunctionControlRewritesWithoutTransmitting
  intro ot eg tr dr bl s hrun hinv
  obtain ⟨m, hexec, hrewritten⟩ :=
    execSetFunctionControl_ok (ot := ot) (eg := eg) (tr := tr) (dr := dr) (bl := bl) hrun hinv
  have hheader : ∀ c, c < s.block.chips → m.read32 (headerOffset c) =
      (s.block.headerOf c).extractLsb' 26 6 ++ fcField ot eg tr dr bl ++
        (s.block.headerOf c).extractLsb' 0 21 :=
    fun c hc => (hrewritten.header c hc).trans (fcWord_eq ..)
  exact ⟨_, hexec, ⟨rfl, rfl, rfl, rfl, rfl⟩, hheader, hrewritten.other, rfl, rfl, rfl⟩

/-- Settles O48: the loop over the chips rewrites every header from the masked operands, and the
transmission that follows logs that buffer and replies by the transport's answer, writing the log
and the port only. -/
theorem setBrightnessRewritesAndTransmits : Obligations.SetBrightnessRewritesAndTransmits := by
  unfold Obligations.SetBrightnessRewritesAndTransmits
  intro r g b s cfg hrun hinv hbus
  obtain ⟨m, hexec, hrewritten⟩ := execSetBrightness_ok (r := r) (g := g) (b := b) hrun hinv hbus
  have hheader : ∀ c, c < s.block.chips → m.read32 (headerOffset c) =
      (s.block.headerOf c).extractLsb' 21 11 ++
        bcField (truncBrightness r) (truncBrightness g) (truncBrightness b) :=
    fun c hc => (hrewritten.header c hc).trans (bcWord_eq ..)
  exact ⟨_, hexec, truncBrightness_toNat_cast r, truncBrightness_toNat_cast g,
    truncBrightness_toNat_cast b, hheader, hrewritten.other, rfl, rfl, rfl,
    State.afterEmit_port cfg _⟩

/-- Settles O50: SET_BRIGHTNESS ends in one transmission on the open bus, SET_FUNCTION_CONTROL in a
reply. -/
theorem brightnessTransmitsAndFunctionControlDoesNot :
    Obligations.BrightnessTransmitsAndFunctionControlDoesNot := by
  unfold Obligations.BrightnessTransmitsAndFunctionControlDoesNot
  intro s r g b ot eg tr dr bl hrun hinv
  constructor
  case left =>
    obtain ⟨cfg, hbus⟩ := hrun.bus_opened hinv
    obtain ⟨m, hexec, -⟩ := execSetBrightness_ok (r := r) (g := g) (b := b) hrun hinv hbus
    exact ⟨_, hexec, State.afterEmit_txlog_length cfg _, State.afterEmit_asks cfg _⟩
  case right =>
    obtain ⟨m, hexec, -⟩ :=
      execSetFunctionControl_ok (ot := ot) (eg := eg) (tr := tr) (dr := dr) (bl := bl) hrun hinv
    exact ⟨_, hexec, rfl, rfl, rfl⟩

end Sys2Proof.Machine
end

section
/-! The rules of 43_lifecycle.md: a bus that does not open (R182), SHOW and its retry after a fault
(R186, R187), and the reconstruction of a driver (R185). -/

namespace Sys2Proof.Machine

theorem exec_construct (p : Int) (bus : BusConfig) (s : State) :
    exec (.construct p bus) s = execConstruct p bus s := rfl

/-! ### A bus that does not open -/

/-- No driver exists outside life Ready, so no bus is held (10_state.md R30). -/
theorem Block.Inv.bus_closed {b : Block} (h : b.Inv) (hlife : b.life ≠ .ready) :
    b.bus = .closed := by
  obtain ⟨-, -, -, hnone⟩ := h
  rw [hnone hlife]
  rfl

/-- The checks of CONSTRUCT passed and the bus failed: the question is all that happened. -/
theorem execConstruct_of_open_fails {p : Int} {bus : BusConfig} {s : State}
    (hhalt : s.block.halt = none) (hlife : s.block.life ≠ .ready)
    (hcap : ∀ m, s.config.maxPixels = some m → p ≤ m) (hp : pixelCountOK p)
    (hopen : (s.port.askBusOpen bus).1 = .fail) :
    execConstruct p bus s =
      .next ((s.withPort (s.port.askBusOpen bus).2).reply (.err .busOpenFailed)) := by
  rw [execConstruct_asks hhalt hlife hcap hp, hopen]
  rfl

/-- Settles O54: the rejection replaces the port alone, and the block it keeps holds no bus because
life is not Ready. -/
theorem constructReportsABusThatDoesNotOpen :
    Obligations.ConstructReportsABusThatDoesNotOpen := by
  unfold Obligations.ConstructReportsABusThatDoesNotOpen
  intro p cfg s hhalt hlife hcap hpos hmod hopen
  refine ⟨_, execConstruct_of_open_fails hhalt hlife hcap ⟨hpos, hmod⟩ hopen, rfl,
    fun hinv => Block.Inv.bus_closed hinv hlife, rfl, ?results, ?asks,
    Port.askBusOpen_transmitScript cfg s.port⟩
  case results | asks => rw [State.reply_port, State.withPort_port, Port.askBusOpen_snd]

/-! ### SHOW -/

/-- A transmission writes the log alone, so the driver runs on. -/
theorem State.Running.afterEmit {s : State} (hrun : s.Running) (cfg : BusConfig) :
    (s.afterEmit cfg).Running := hrun

/-- The buffer stays, so the next transmission presents the same frame (43_lifecycle.md R187). -/
theorem State.afterEmit_frame (cfg : BusConfig) (s : State) :
    (s.afterEmit cfg).block.frame = s.block.frame := rfl

theorem State.afterEmit_bus (cfg : BusConfig) (s : State) :
    (s.afterEmit cfg).block.bus = s.block.bus := rfl

theorem State.afterEmit_results (cfg : BusConfig) (s : State) :
    (s.afterEmit cfg).port.results =
      s.port.results ++ [transmitResult (s.port.askTransmit cfg s.block.frame).1] := by
  rw [State.afterEmit_port, State.reply_port, State.withPort_port, Port.askTransmit_snd]

/-- Settles O56: SHOW is one transmission of the buffer's frame, which holds its L bytes in
ascending order. -/
theorem showTransmitsTheWholeFrame : Obligations.ShowTransmitsTheWholeFrame := by
  unfold Obligations.ShowTransmitsTheWholeFrame
  intro s cfg hrun hbus
  exact ⟨s.afterEmit cfg, s.block.frame, Memory.bytes_length ..,
    fun _ hk => Memory.bytes_getElem? _ hk, execShow_ok hrun hbus, rfl, rfl,
    State.afterEmit_port cfg s⟩

/-- Settles O57: the faulted transmission keeps the driver running on the same bus with the same
frame, so the second SHOW is a transmission too and logs that frame again. -/
theorem faultedShowCanBeRetried : Obligations.FaultedShowCanBeRetried := by
  unfold Obligations.FaultedShowCanBeRetried
  intro s cfg hrun hbus hfault
  have hblock : (s.afterEmit cfg).block = s.block.logTransmission ⟨s.block.frame, .fault⟩ := by
    rw [State.afterEmit_block, hfault]
  have hretry : exec .showFrame (s.afterEmit cfg) = .next ((s.afterEmit cfg).afterEmit cfg) :=
    execShow_ok (hrun.afterEmit cfg) ((State.afterEmit_bus cfg s).trans hbus)
  have hlog : ((s.afterEmit cfg).afterEmit cfg).block.txlog =
      s.block.txlog ++ [⟨s.block.frame, .fault⟩,
        ⟨s.block.frame, ((s.afterEmit cfg).port.askTransmit cfg s.block.frame).1⟩] := by
    rw [State.afterEmit_block, State.afterEmit_frame, hblock, Block.logTransmission_txlog,
      Block.logTransmission_txlog, List.append_assoc, List.singleton_append]
  refine ⟨_, _, _, execShow_ok hrun hbus, hrun.afterEmit cfg, ?results, rfl, hblock, hretry, hlog⟩
  case results => rw [State.afterEmit_results, hfault, transmitResult, if_neg (by decide)]

/-! ### Reconstruction -/

theorem execAll_cons_of_next {i : Instr} {is : List Instr} {s t : State}
    (h : exec i s = .next t) : execAll (i :: is) s = execAll is t := by
  rw [execAll, h]

theorem execAll_singleton (i : Instr) (s : State) : execAll [i] s = exec i s := by
  rw [execAll]
  cases exec i s <;> rfl

/-- A stop answered or taken leaves the lifecycle. -/
theorem StopTaken.life_eq {s t : State} (h : StopTaken s t) : t.block.life = s.block.life := by
  obtain ⟨stop, -, rfl⟩ | ⟨-, stop, rfl⟩ := h
  · rw [State.reply_block]
  · rw [State.reply_block, State.withBlock_block, Block.withHalt_life]

/-- A CONSTRUCT that makes the block Ready initialised the headers of the fresh block: a stop and a
rejection leave life as it was. -/
theorem execConstruct_builds {p : Int} {bus : BusConfig} {s t : State}
    (h : execConstruct p bus s = .next t) (hlife : s.block.life ≠ .ready)
    (hready : t.block.life = .ready) :
    forEachChip (initHeader s.config.writeCmd) (Block.fresh s.config p.toNat bus s.block) =
      .ok t.block := by
  obtain hstop | ⟨-, -, rfl | rfl | ⟨m, -, -, hbuilt, rfl⟩⟩ := execConstruct_next h
  · exact absurd (hstop.life_eq ▸ hready) hlife
  · exact absurd hready hlife
  · exact absurd hready hlife
  · exact hbuilt

/-- The fresh block takes the stop and the log from the old block and nothing else
(43_lifecycle.md R185). -/
theorem Block.fresh_congr {b b' : Block} (hhalt : b.halt = b'.halt) (htxlog : b.txlog = b'.txlog)
    (cfg : Config) (n : Nat) (bus : BusConfig) :
    Block.fresh cfg n bus b = Block.fresh cfg n bus b' := by
  rw [Block.fresh, Block.fresh, hhalt, htxlog]

/-- DEINIT then CONSTRUCT initialises the headers of a block that is fresh over the released one. -/
theorem reconstruct_builds {p : Int} {bus : BusConfig} {s t : State} (hrun : s.Running)
    (h : execAll [.deinit, .construct p bus] s = .next t) (hready : t.block.life = .ready) :
    forEachChip (initHeader s.config.writeCmd)
      (Block.fresh s.config p.toNat bus s.block.afterDeinit) = .ok t.block := by
  have hdeinit : exec .deinit s = .next ((s.withBlock s.block.afterDeinit).reply .ok) :=
    execDeinit_ok hrun
  rw [execAll_cons_of_next hdeinit, execAll_singleton, exec_construct] at h
  exact execConstruct_builds (s := (s.withBlock s.block.afterDeinit).reply .ok) h (by simp) hready

/-- Settles O59: both reconstructions initialise the headers of one and the same fresh block, and
that writes the buffer only. -/
theorem reconstructionForgetsTheOldDriver : Obligations.ReconstructionForgetsTheOldDriver := by
  unfold Obligations.ReconstructionForgetsTheOldDriver
  intro p cfg s s' t t' hrun hrun' hconfig htxlog h hready h' hready'
  have hbuilt := reconstruct_builds hrun h hready
  have hbuilt' := reconstruct_builds hrun' h' hready'
  have hsame : Block.fresh s.config p.toNat cfg s.block.afterDeinit =
      Block.fresh s'.config p.toNat cfg s'.block.afterDeinit := by
    rw [hconfig]
    refine Block.fresh_congr ?_ ?_ ..
    · rw [Block.afterDeinit_halt, Block.afterDeinit_halt, hrun.1, hrun'.1]
    · rw [Block.afterDeinit_txlog, Block.afterDeinit_txlog, htxlog]
  constructor
  case left =>
    rw [hsame, hconfig, hbuilt'] at hbuilt
    exact (Except.ok.inj hbuilt).symm
  case right =>
    obtain ⟨m, hblock⟩ := forEachChip_only_buf (fun _ _ _ => initHeader_only_buf) hbuilt
    rw [hblock, Block.withBuf_txlog, Block.fresh_txlog, Block.afterDeinit_txlog]

end Sys2Proof.Machine
end

section
/-! The rules of 60_exceptions.md: the lifecycle faults (R206) and the numbers of the result port
(R208). -/

namespace Sys2Proof.Machine

/-! ### Lifecycle faults -/

theorem eq_construct_of_tag {i : Instr} (h : i.tag = 0x01#8) :
    ∃ p bus, i = .construct p bus := by
  cases i with
  | construct p bus => exact ⟨p, bus, rfl⟩
  | setField | getField | setChannel | getChannel | setAll | setAllOff | setBrightness
  | setFunctionControl | showFrame | deinit => exact absurd h (by simp [Instr.tag])

/-- Every command but CONSTRUCT runs behind the common checks (60_exceptions.md R210). -/
theorem exec_eq_commonChecks {i : Instr} (h : i.tag ≠ 0x01#8) (s : State) :
    ∃ k, exec i s = commonChecks s k := by
  cases i with
  | construct => exact absurd rfl h
  | setField | getField | setChannel | getChannel | setAll | setAllOff | setBrightness
  | setFunctionControl | showFrame | deinit => exact ⟨_, rfl⟩

theorem execConstruct_ready {s : State} (hhalt : s.block.halt = none)
    (hlife : s.block.life = .ready) (p : Int) (bus : BusConfig) :
    execConstruct p bus s = takeStop (.fault .alreadyConfigured) s := by
  rw [execConstruct, unlessStopped_none hhalt, if_pos hlife]

/-- Settles O22: the common checks take the stop before the command behind them is looked at, and
CONSTRUCT over a live driver takes its own before it looks at its operands. -/
theorem commandsOutsideTheirLifecycleStopTheBlock :
    Obligations.CommandsOutsideTheirLifecycleStopTheBlock := by
  unfold Obligations.CommandsOutsideTheirLifecycleStopTheBlock
  intro i s hhalt
  refine ⟨fun hlife htag => ?unconfigured, fun hlife htag => ?released,
    fun hlife htag => ?ready⟩
  case unconfigured =>
    obtain ⟨k, hexec⟩ := exec_eq_commonChecks htag s
    rw [hexec, commonChecks_unconfigured hhalt hlife, takeStop]
  case released =>
    obtain ⟨k, hexec⟩ := exec_eq_commonChecks htag s
    rw [hexec, commonChecks_released hhalt hlife, takeStop]
  case ready =>
    obtain ⟨p, bus, rfl⟩ := eq_construct_of_tag htag
    rw [exec_construct, execConstruct_ready hhalt hlife, takeStop]

/-! ### The numbers of the result port -/

/-- The table of 60_exceptions.md R208 read from the numbers to the result. -/
def resultOfCode (c : ResultCode) : Option Result :=
  match c.code.toNat, c.sub.toNat, c.value with
  | 0x00, 0x00, none => some .ok
  | 0x01, 0x00, some n => some (.value n)
  | 0x10, 0x01, none => some (.err .badPixelCount)
  | 0x10, 0x02, none => some (.err .busOpenFailed)
  | 0x20, 0x01, none => some (.err .channelIndex)
  | 0x20, 0x02, none => some (.err .pwmValue)
  | 0x20, 0x03, none => some (.err .fieldGeometry)
  | 0x30, 0x00, none => some (.err .transportFault)
  | 0x40, 0x01, none => some (.stopped (.fault .notConfigured))
  | 0x40, 0x02, none => some (.stopped (.fault .useAfterRelease))
  | 0x40, 0x03, none => some (.stopped (.fault .alreadyConfigured))
  | 0x50, 0x01, some v => some (.stopped (.refused (.illegalCommand (BitVec.ofInt 8 v))))
  | 0x50, 0x02, some p => some (.stopped (.refused (.capacityExceeded p)))
  | _, _, _ => none

/-- The value of IllegalCommand is the tag's number, which gives the tag back. -/
theorem resultOfCode_illegalCommand (tag : Tag) :
    resultOfCode (resultCode (.stopped (.refused (.illegalCommand tag)))) =
      some (.stopped (.refused (.illegalCommand tag))) := by
  have htag : BitVec.ofInt 8 tag.toNat = tag := by simp
  exact congrArg (fun x => some (Result.stopped (.refused (.illegalCommand x)))) htag

theorem resultOfCode_resultCode (r : Result) : resultOfCode (resultCode r) = some r := by
  cases r with
  | ok | value => rfl
  | err e => cases e <;> rfl
  | stopped stop =>
    cases stop with
    | fault reason => cases reason <;> rfl
    | refused reason =>
      cases reason with
      | illegalCommand tag => exact resultOfCode_illegalCommand tag
      | capacityExceeded => rfl

theorem resultCode_injective : Function.Injective resultCode := fun r r' h => by
  have hread := congrArg resultOfCode h
  rw [resultOfCode_resultCode, resultOfCode_resultCode] at hread
  exact Option.some.inj hread

/-- Settles O23: the thirteen rows are `resultCode`'s, and the table can be read backwards. -/
theorem resultCodesAreTheTable : Obligations.ResultCodesAreTheTable := by
  unfold Obligations.ResultCodesAreTheTable
  exact ⟨⟨rfl, fun _ => rfl, rfl, rfl, rfl, rfl, rfl, rfl, rfl, rfl, rfl, fun _ => rfl,
    fun _ => rfl⟩, resultCode_injective⟩

end Sys2Proof.Machine
end

section
/-! The rules of 30_encoding.md: the well-formed records are the encodings of commands, and what a
step does with a record of each kind (R90 to R95). -/

namespace Sys2Proof

/-! ### Records and commands -/

theorem Operand.hasType_int_iff {x : Operand} : x.hasType .int = true ↔ ∃ n, x = .ofInt n := by
  refine ⟨fun h => ?_, fun ⟨n, hn⟩ => hn ▸ Operand.hasType_ofInt n⟩
  cases x with
  | number q =>
    have hden : q.den = 1 := by simpa [Operand.hasType] using h
    exact ⟨q.num, Operand.int?_eq_some.mp (by simp [Operand.int?, hden])⟩
  | bus | nonFinite | nonNumeric => simp [Operand.hasType] at h

theorem Operand.hasType_rat_iff {x : Operand} : x.hasType .rat = true ↔ ∃ q, x = .number q := by
  cases x <;> simp [Operand.hasType]

theorem Operand.hasType_bool_iff {x : Operand} : x.hasType .bool = true ↔ ∃ v, x = .ofBool v := by
  cases x <;> simp [Operand.hasType, Operand.ofBool]

theorem Operand.hasType_busConfig_iff {x : Operand} :
    x.hasType .busConfig = true ↔ ∃ c, x = .bus c := by
  cases x <;> simp [Operand.hasType]

theorem operandsFit_nil_iff {xs : List Operand} : operandsFit [] xs = true ↔ xs = [] := by
  cases xs <;> simp [operandsFit]

theorem operandsFit_cons_iff {t : OperandType} {ts : List OperandType} {xs : List Operand} :
    operandsFit (t :: ts) xs = true ↔
      ∃ x ys, xs = x :: ys ∧ x.hasType t = true ∧ operandsFit ts ys = true := by
  cases xs <;> simp [operandsFit]

theorem Tag.legal_cases {tag : Tag} (h : tag.legal) :
    tag = 0x01#8 ∨ tag = 0x02#8 ∨ tag = 0x03#8 ∨ tag = 0x04#8 ∨ tag = 0x05#8 ∨ tag = 0x06#8 ∨
      tag = 0x07#8 ∨ tag = 0x08#8 ∨ tag = 0x09#8 ∨ tag = 0x0A#8 ∨ tag = 0x0B#8 := by
  obtain ⟨hlow, hhigh⟩ := (Tag.legal_iff tag).mp h
  simp only [← BitVec.toNat_inj, BitVec.toNat_ofNat]
  omega

/-- A well-formed record is the encoding of a command: each row of the tag table lists the types of
the command's own operands (30_encoding.md R93). -/
theorem exists_encode_of_wellFormed {r : Record} (h : r.wellFormed) : ∃ i, r = encode i := by
  obtain ⟨tag, xs⟩ := r
  obtain ⟨hlegal, hfit⟩ := h
  rcases Tag.legal_cases hlegal with
      rfl | rfl | rfl | rfl | rfl | rfl | rfl | rfl | rfl | rfl | rfl <;>
    simp only [Tag.operandTypes, BitVec.reduceToNat, operandsFit_cons_iff, operandsFit_nil_iff,
      Operand.hasType_int_iff, Operand.hasType_rat_iff, Operand.hasType_bool_iff,
      Operand.hasType_busConfig_iff] at hfit
  · obtain ⟨_, _, rfl, ⟨p, rfl⟩, _, _, rfl, ⟨c, rfl⟩, rfl⟩ := hfit
    exact ⟨.construct p c, rfl⟩
  · obtain ⟨_, _, rfl, ⟨o, rfl⟩, _, _, rfl, ⟨b, rfl⟩, _, _, rfl, ⟨w, rfl⟩, _, _, rfl, ⟨v, rfl⟩,
      rfl⟩ := hfit
    exact ⟨.setField o b w v, rfl⟩
  · obtain ⟨_, _, rfl, ⟨o, rfl⟩, _, _, rfl, ⟨b, rfl⟩, _, _, rfl, ⟨w, rfl⟩, rfl⟩ := hfit
    exact ⟨.getField o b w, rfl⟩
  · obtain ⟨_, _, rfl, ⟨i, rfl⟩, _, _, rfl, ⟨p, rfl⟩, rfl⟩ := hfit
    exact ⟨.setChannel i p, rfl⟩
  · obtain ⟨_, _, rfl, ⟨i, rfl⟩, rfl⟩ := hfit
    exact ⟨.getChannel i, rfl⟩
  · obtain ⟨_, _, rfl, ⟨p, rfl⟩, rfl⟩ := hfit
    exact ⟨.setAll p, rfl⟩
  · subst hfit
    exact ⟨.setAllOff, rfl⟩
  · obtain ⟨_, _, rfl, ⟨r, rfl⟩, _, _, rfl, ⟨g, rfl⟩, _, _, rfl, ⟨b, rfl⟩, rfl⟩ := hfit
    exact ⟨.setBrightness r g b, rfl⟩
  · obtain ⟨_, _, rfl, ⟨ot, rfl⟩, _, _, rfl, ⟨eg, rfl⟩, _, _, rfl, ⟨tr, rfl⟩, _, _, rfl, ⟨dr, rfl⟩,
      _, _, rfl, ⟨bl, rfl⟩, rfl⟩ := hfit
    exact ⟨.setFunctionControl ot eg tr dr bl, rfl⟩
  · subst hfit
    exact ⟨.showFrame, rfl⟩
  · subst hfit
    exact ⟨.deinit, rfl⟩

/-- Each reader gives back the operand that the encoder wrote (30_encoding.md R94). -/
theorem decodeOperands_operands (i : Instr) : decodeOperands i.tag i.operands = some i := by
  cases i <;> simp [decodeOperands, Instr.tag, Instr.operands]

theorem decode_encode (i : Instr) : decode (encode i) = .ok i := by
  simp [decode, encode, Instr.tag_legal, decodeOperands_operands]

/-- Settles O2: a record that decodes is an encoding, and an encoding decodes to its command. -/
theorem decodeAndEncodeAgree : Obligations.DecodeAndEncodeAgree := by
  unfold Obligations.DecodeAndEncodeAgree
  exact fun r i => ⟨eq_encode_of_decode, fun h => h ▸ decode_encode i⟩

theorem wellFormed_iff_decodes {r : Record} : r.wellFormed ↔ ∃ i, decode r = .ok i := by
  refine ⟨fun h => ?_, fun ⟨i, hi⟩ => eq_encode_of_decode hi ▸ (encode_fits i).1⟩
  obtain ⟨i, rfl⟩ := exists_encode_of_wellFormed h
  exact ⟨i, decode_encode i⟩

/-- Settles O4: the records that decode are the well-formed ones, and each type holds exactly the
operands that the encoder writes for it. -/
theorem decodeAcceptsExactlyTheWellTyped : Obligations.DecodeAcceptsExactlyTheWellTyped := by
  unfold Obligations.DecodeAcceptsExactlyTheWellTyped
  refine ⟨fun r => wellFormed_iff_decodes.symm.trans and_assoc, fun x =>
    ⟨Operand.hasType_int_iff, Operand.hasType_rat_iff, ?bool, Operand.hasType_busConfig_iff⟩⟩
  case bool => rw [Operand.hasType_bool_iff, Bool.exists_bool]; rfl

/-- Settles O1: each record is the encoding of the command of its row. -/
theorem decodeReadsTheTagTable : Obligations.DecodeReadsTheTagTable := by
  unfold Obligations.DecodeReadsTheTagTable
  exact ⟨decode_encode (.construct 4 ⟨7⟩), decode_encode (.setField 0 26 6 37),
    decode_encode (.getField 28 14 7), decode_encode (.setChannel 3 12),
    decode_encode (.getChannel 6), decode_encode (.setAll 25), decode_encode .setAllOff,
    decode_encode (.setBrightness 10 20 30),
    decode_encode (.setFunctionControl false true false false true), decode_encode .showFrame,
    decode_encode .deinit⟩

theorem decode_of_illegal {r : Record} (h : ¬ r.tag.legal) :
    decode r = .error (.illegalTag r.tag) := if_neg h

/-- Why a record with a legal tag is not a command (log entry 10). -/
def Record.misfit (r : Record) : DecodeError :=
  if r.operands.length = r.tag.operandTypes.length then .operandType r.tag
  else .operandCount r.tag r.operands.length

theorem decode_of_misfit {r : Record} (hlegal : r.tag.legal)
    (hfit : operandsFit r.tag.operandTypes r.operands = false) :
    decode r = .error r.misfit := by
  have hnone : decodeOperands r.tag r.operands = none := by
    by_contra hsome
    obtain ⟨i, hi⟩ := Option.ne_none_iff_exists'.mp hsome
    have hdecode : decode r = .ok i := by simp [decode, hlegal, hi]
    rw [(wellFormed_iff_decodes.mpr ⟨i, hdecode⟩).2] at hfit
    contradiction
  simp only [decode, if_pos hlegal, hnone, Record.misfit]
  split <;> rfl

end Sys2Proof

namespace Sys2Proof.Machine

/-! ### The step, by the record at the head of the port -/

theorem step_of_pending {s : State} {r : Record} {rest : List Record}
    (h : s.port.pending = r :: rest) : step s = runRecord r (s.withPending rest) := by
  simp [step, runNext, h]

theorem step_of_no_pending {s : State} (h : s.port.pending = []) : step s = .next s := by
  simp [step, runNext, h]

theorem runRecord_of_decodes {r : Record} {i : Instr} (h : decode r = .ok i) (s : State) :
    runRecord r s = exec i s := by
  simp [runRecord, h]

theorem runRecord_of_illegal {r : Record} (h : ¬ r.tag.legal) (s : State) :
    runRecord r s = refuseTag r.tag s := by
  simp [runRecord, decode_of_illegal h]

theorem runRecord_of_misfit {r : Record} (hlegal : r.tag.legal)
    (hfit : operandsFit r.tag.operandTypes r.operands = false) (s : State) :
    runRecord r s = .refused (.notACommand r.misfit) := by
  simp only [runRecord, decode_of_misfit hlegal hfit, Record.misfit]
  by_cases hlength : r.operands.length = r.tag.operandTypes.length <;> simp [hlength]

/-- Settles O5: the head record leaves the port and its command runs. -/
theorem stepRunsTheDecodedCommand : Obligations.StepRunsTheDecodedCommand := by
  unfold Obligations.StepRunsTheDecodedCommand
  intro s r rest i hpending hdecode
  rw [step_of_pending hpending, runRecord_of_decodes hdecode]

/-- Settles O6: the decoder names the misfit, and the port refuses the record by that name. -/
theorem illTypedRecordIsRefusedBeforeTheBlock :
    Obligations.IllTypedRecordIsRefusedBeforeTheBlock := by
  unfold Obligations.IllTypedRecordIsRefusedBeforeTheBlock
  intro s r rest hpending hlegal hfit
  rw [step_of_pending hpending, runRecord_of_misfit hlegal hfit]
  rfl

theorem Tag.not_legal_of_outside {tag : Tag} (h : tag = 0x00#8 ∨ 0x0C#8 ≤ tag) : ¬ tag.legal := by
  rw [Tag.legal_iff]
  rcases h with rfl | h
  · decide
  · rw [BitVec.le_def, BitVec.toNat_ofNat] at h
    omega

/-- Settles O7: the tag is no command's, and a block without a stop takes the refusal as its
stop. -/
theorem illegalTagStopsTheBlock : Obligations.IllegalTagStopsTheBlock := by
  unfold Obligations.IllegalTagStopsTheBlock
  intro s r rest hpending htag hhalt
  rw [step_of_pending hpending, runRecord_of_illegal (Tag.not_legal_of_outside htag), refuseTag,
    unlessStopped_none (by simpa using hhalt), takeStop, State.withPending_block]

end Sys2Proof.Machine
end

section
/-! The assembler's lines (30_encoding.md R96 and R97): what a listing writes, the assembler reads
back. -/

namespace Sys2Proof.Machine

/-! ### Numbers written and read back -/

theorem not_mem_toDigits {c : Char} (h : c.isDigit = false) (n : Nat) :
    c ∉ Nat.toDigits 10 n := fun hc => by
  rw [Nat.isDigit_of_mem_toDigits (by decide) (by decide) hc] at h
  contradiction

theorem digitValue_of_isDigit {c : Char} (h : c.isDigit = true) :
    digitValue 10 c = some (c.toNat - '0'.toNat) := by
  obtain ⟨hlow, hhigh⟩ : '0' ≤ c ∧ c ≤ '9' := by simpa [Char.isDigit, Char.le_def] using h
  have hlt : c.toNat - '0'.toNat < 10 := by
    have : c.toNat ≤ '9'.toNat := hhigh
    simp only [Char.reduceToNat] at this ⊢
    omega
  simp only [digitValue, hlow, hhigh, and_self, if_true, if_pos hlt]

theorem foldlM_digitValue {cs : List Char} (h : ∀ c ∈ cs, c.isDigit = true) (acc : Nat) :
    cs.foldlM (fun acc c => (digitValue 10 c).map (acc * 10 + ·)) acc =
      some (Nat.ofDigitChars 10 cs acc) := by
  induction cs generalizing acc with
  | nil => rfl
  | cons c cs ih =>
    obtain ⟨hc, hcs⟩ := List.forall_mem_cons.mp h
    simp only [List.foldlM_cons, digitValue_of_isDigit hc, Option.map_some, Option.bind_eq_bind,
      Option.bind_some]
    rw [ih hcs, Nat.ofDigitChars_cons, Nat.mul_comm]

theorem parseNat_toDigits (n : Nat) : parseNat 10 (Nat.toDigits 10 n) = some n := by
  have hdigits : ∀ c ∈ Nat.toDigits 10 n, c.isDigit = true := fun c hc =>
    Nat.isDigit_of_mem_toDigits (by decide) (by decide) hc
  rw [parseNat, if_neg (by simp [Nat.toDigits_ne_nil]), foldlM_digitValue hdigits,
    Nat.ofDigitChars_ten_toDigits]

/-- A row of digits carries neither a base nor a sign. -/
theorem parseInt_of_digits {cs : List Char} (h : ∀ c : Char, c.isDigit = false → c ∉ cs) :
    parseInt cs = (parseNat 10 cs).map Int.ofNat := by
  unfold parseInt
  split
  · exact absurd (by simp) (h 'x' (by decide))
  · exact absurd (by simp) (h 'b' (by decide))
  · exact absurd (by simp) (h '-' (by decide))
  · rfl

theorem parseInt_listInt (v : Int) : parseInt (listInt v) = some v := by
  rw [listInt]
  split
  · next hneg =>
    rw [parseInt, parseNat_toDigits, Option.map_some, Int.natCast_natAbs, abs_of_neg hneg, neg_neg]
  · next hpos =>
    rw [parseInt_of_digits fun c hc => not_mem_toDigits hc _, parseNat_toDigits, Option.map_some,
      Int.ofNat_eq_natCast, Int.natCast_natAbs, abs_of_nonneg (not_lt.mp hpos)]

theorem splitFirst_of_not_mem {sep : Char} {cs : List Char} (h : sep ∉ cs) :
    splitFirst sep cs = (cs, none) := by
  have hall : ∀ c ∈ cs, decide (c ≠ sep) = true := fun c hc =>
    decide_eq_true (ne_of_mem_of_not_mem hc h)
  rw [splitFirst, List.takeWhile_eq_self_iff.mpr hall, List.dropWhile_eq_nil_iff.mpr hall]
  rfl

theorem splitFirst_append {sep : Char} {cs : List Char} (h : sep ∉ cs) (ds : List Char) :
    splitFirst sep (cs ++ sep :: ds) = (cs, some ds) := by
  have hall : ∀ c ∈ cs, decide (c ≠ sep) = true := fun c hc =>
    decide_eq_true (ne_of_mem_of_not_mem hc h)
  rw [splitFirst, List.takeWhile_append_of_pos hall, List.dropWhile_append_of_pos hall,
    List.takeWhile_cons_of_neg (by simp), List.dropWhile_cons_of_neg (by simp), List.append_nil]
  rfl

theorem parseUnsignedRat_toDigits (n : Nat) :
    parseUnsignedRat (Nat.toDigits 10 n) = some (n : Rat) := by
  rw [parseUnsignedRat, splitFirst_of_not_mem (not_mem_toDigits (by decide) n),
    splitFirst_of_not_mem (not_mem_toDigits (by decide) n)]
  simp only [parseNat_toDigits, Option.map_some]

theorem parseUnsignedRat_fraction (n : Nat) {d : Nat} (hd : d ≠ 0) :
    parseUnsignedRat (Nat.toDigits 10 n ++ '/' :: Nat.toDigits 10 d) =
      some ((n : Rat) / (d : Rat)) := by
  rw [parseUnsignedRat, splitFirst_append (not_mem_toDigits (by decide) n)]
  simp [parseNat_toDigits, hd]

/-- A text that does not begin with a sign is read as an unsigned number. -/
theorem parseRat_of_unsigned {cs : List Char} (h : cs.head? ≠ some '-') :
    parseRat cs = parseUnsignedRat cs := by
  unfold parseRat
  split
  · exact absurd rfl h
  · rfl

theorem head?_toDigits_append_ne (n : Nat) (cs : List Char) :
    (Nat.toDigits 10 n ++ cs).head? ≠ some '-' := by
  rw [List.head?_append_of_ne_nil _ Nat.toDigits_ne_nil]
  exact fun h => not_mem_toDigits (by decide) n (List.mem_of_head? h)

/-- The magnitude of a listed Rat, as it stands after the sign. -/
def listMagnitude (q : Rat) : List Char :=
  Nat.toDigits 10 q.num.natAbs ++ if q.den = 1 then [] else '/' :: Nat.toDigits 10 q.den

theorem listRat_eq (q : Rat) :
    listRat q = if q.num < 0 then '-' :: listMagnitude q else listMagnitude q := by
  unfold listRat listInt listMagnitude
  split_ifs <;> simp

theorem parseUnsignedRat_listMagnitude (q : Rat) :
    parseUnsignedRat (listMagnitude q) = some ((q.num.natAbs : Rat) / (q.den : Rat)) := by
  rw [listMagnitude]
  split
  · next hden => rw [List.append_nil, parseUnsignedRat_toDigits, hden, Nat.cast_one, div_one]
  · exact parseUnsignedRat_fraction _ q.den_nz

theorem parseRat_listRat (q : Rat) : parseRat (listRat q) = some q := by
  rw [listRat_eq]
  split
  · next hneg =>
    have habs : (q.num.natAbs : Rat) = -q.num := by
      rw [Nat.cast_natAbs, abs_of_neg hneg, Int.cast_neg]
    rw [parseRat, parseUnsignedRat_listMagnitude, Option.map_some, habs, neg_div, neg_neg,
      Rat.num_div_den]
  · next hpos =>
    have habs : (q.num.natAbs : Rat) = q.num := by
      rw [Nat.cast_natAbs, abs_of_nonneg (not_lt.mp hpos)]
    have hunsigned : (listMagnitude q).head? ≠ some '-' := head?_toDigits_append_ne _ _
    rw [parseRat_of_unsigned hunsigned, parseUnsignedRat_listMagnitude, habs, Rat.num_div_den]

/-! ### Blanks and commas -/

/-- A text that the assembler takes whole between its commas. -/
structure OperandText (cs : List Char) : Prop where
  ne_nil : cs ≠ []
  no_comma : ',' ∉ cs
  no_blank : ' ' ∉ cs

/-- A text with no blank at either end. -/
structure Trimmed (cs : List Char) : Prop where
  ne_nil : cs ≠ []
  head : cs.head? ≠ some ' '
  last : cs.getLast? ≠ some ' '

theorem Trimmed.of_no_blank {cs : List Char} (hne : cs ≠ []) (h : ' ' ∉ cs) : Trimmed cs :=
  ⟨hne, fun hc => h (List.mem_of_head? hc), fun hc => h (List.mem_of_getLast? hc)⟩

theorem OperandText.trimmed {cs : List Char} (h : OperandText cs) : Trimmed cs :=
  .of_no_blank h.ne_nil h.no_blank

theorem Trimmed.append {a c : List Char} (ha : Trimmed a) (hc : Trimmed c) (b : List Char) :
    Trimmed (a ++ b ++ c) where
  ne_nil := by simp [ha.ne_nil]
  head := by
    rw [List.append_assoc, List.head?_append_of_ne_nil _ ha.ne_nil]
    exact ha.head
  last := by
    rw [List.getLast?_append_of_ne_nil _ hc.ne_nil]
    exact hc.last

theorem dropWhile_blank_of_head? {cs : List Char} (h : cs.head? ≠ some ' ') :
    cs.dropWhile (· = ' ') = cs := by
  cases cs with
  | nil => rfl
  | cons c cs => exact List.dropWhile_cons_of_neg (by simpa using h)

theorem Trimmed.trimBlanks_eq {cs : List Char} (h : Trimmed cs) : trimBlanks cs = cs := by
  rw [trimBlanks, dropWhile_blank_of_head? h.head,
    dropWhile_blank_of_head? (by rw [List.head?_reverse]; exact h.last), List.reverse_reverse]

theorem trimBlanks_blank_cons (cs : List Char) : trimBlanks (' ' :: cs) = trimBlanks cs := by
  rw [trimBlanks, List.dropWhile_cons_of_pos (by simp), trimBlanks]

theorem trimmed_intercalate {x : List Char} {xs : List (List Char)} (sep : List Char)
    (h : ∀ y ∈ x :: xs, Trimmed y) : Trimmed (sep.intercalate (x :: xs)) := by
  induction xs generalizing x with
  | nil =>
    rw [List.intercalate_singleton]
    exact h x (by simp)
  | cons y ys ih =>
    rw [List.intercalate_cons_cons]
    exact (h x (by simp)).append (ih fun z hz => h z (by simp_all)) sep

theorem splitCommas_ne_nil (cs : List Char) : splitCommas cs ≠ [] := by
  cases cs with
  | nil => simp [splitCommas]
  | cons c cs =>
    rw [splitCommas]
    split
    · simp
    · split <;> simp

theorem splitCommas_comma_cons (cs : List Char) :
    splitCommas (',' :: cs) = [] :: splitCommas cs := by
  rw [splitCommas]
  split
  · next h => exact absurd h (splitCommas_ne_nil cs)
  · next h => rw [h, if_pos rfl]

theorem splitCommas_cons_of_ne {c : Char} (hc : c ≠ ',') {cs x : List Char}
    {xs : List (List Char)} (h : splitCommas cs = x :: xs) :
    splitCommas (c :: cs) = (c :: x) :: xs := by
  rw [splitCommas, h]
  exact if_neg hc

theorem splitCommas_of_not_mem {cs : List Char} (h : ',' ∉ cs) : splitCommas cs = [cs] := by
  induction cs with
  | nil => rfl
  | cons c cs ih =>
    obtain ⟨hc, hcs⟩ := not_or.mp (List.mem_cons.not.mp h)
    exact splitCommas_cons_of_ne (Ne.symm hc) (ih hcs)

theorem splitCommas_append {cs : List Char} (h : ',' ∉ cs) (ds : List Char) :
    splitCommas (cs ++ ',' :: ds) = cs :: splitCommas ds := by
  induction cs with
  | nil => exact splitCommas_comma_cons ds
  | cons c cs ih =>
    obtain ⟨hc, hcs⟩ := not_or.mp (List.mem_cons.not.mp h)
    exact splitCommas_cons_of_ne (Ne.symm hc) (ih hcs)

/-- Texts joined by a comma and a blank come apart at the commas, each later one with its blank. -/
theorem splitCommas_intercalate {x : List Char} {xs : List (List Char)}
    (h : ∀ y ∈ x :: xs, ',' ∉ y) :
    splitCommas ([',', ' '].intercalate (x :: xs)) = x :: xs.map (' ' :: ·) := by
  induction xs generalizing x with
  | nil =>
    rw [List.intercalate_singleton]
    exact splitCommas_of_not_mem (h x (by simp))
  | cons y ys ih =>
    obtain ⟨hx, hys⟩ := List.forall_mem_cons.mp h
    obtain ⟨hy, hys⟩ := List.forall_mem_cons.mp hys
    have hblank : ∀ z ∈ (' ' :: y) :: ys, ',' ∉ z :=
      List.forall_mem_cons.mpr ⟨by simp [hy], hys⟩
    rw [List.intercalate_cons_cons, List.append_assoc, List.cons_append, splitCommas_append hx,
      List.cons_append, List.nil_append, ← List.intercalate_cons_cons_left, ih hblank,
      List.map_cons]

theorem parseOperands_congr (names : BusNames) (ts : List OperandType)
    {xs ys : List (List Char)} (h : xs.map trimBlanks = ys.map trimBlanks) :
    parseOperands names ts xs = parseOperands names ts ys := by
  induction ts generalizing xs ys with
  | nil => cases xs <;> cases ys <;> simp_all [parseOperands]
  | cons t ts ih =>
    cases xs with
    | nil => cases ys <;> simp_all
    | cons x xs =>
      cases ys with
      | nil => simp at h
      | cons y ys =>
        obtain ⟨hx, hxs⟩ := List.cons.inj h
        rw [parseOperands, parseOperands, hx, ih hxs]

/-- The blank after a comma is trimmed off again. -/
theorem parseOperands_splitCommas (names : BusNames) (ts : List OperandType) {x : List Char}
    {xs : List (List Char)} (h : ∀ y ∈ x :: xs, OperandText y) :
    parseOperands names ts (splitCommas ([',', ' '].intercalate (x :: xs))) =
      parseOperands names ts (x :: xs) := by
  rw [splitCommas_intercalate fun y hy => (h y hy).no_comma]
  refine parseOperands_congr names ts ?_
  simp only [List.map_cons, List.map_map, Function.comp_def, trimBlanks_blank_cons]

/-! ### A listing assembled -/

theorem mnemonic_text (i : Instr) : (mnemonic i).toList ≠ [] ∧ ' ' ∉ (mnemonic i).toList := by
  cases i <;> simp [mnemonic]

theorem listing_of_no_operands {busName : BusConfig → List Char} {i : Instr}
    (h : listOperands busName i = []) : listing busName i = (mnemonic i).toList := by
  rw [listing, h]

theorem listing_of_operands {busName : BusConfig → List Char} {i : Instr} {x : List Char}
    {xs : List (List Char)} (h : listOperands busName i = x :: xs) :
    listing busName i =
      (mnemonic i).toList ++ ' ' :: [',', ' '].intercalate (x :: xs) := by
  rw [listing, h]

/-- The assembler splits a listing into the mnemonic and the operands' texts. -/
theorem assemble_listing (names : BusNames) {busName : BusConfig → List Char} {i : Instr}
    (h : ∀ x ∈ listOperands busName i, OperandText x) :
    assemble names (listing busName i) =
      (parseOperands names i.tag.operandTypes (listOperands busName i)).map (⟨i.tag, ·⟩) := by
  obtain ⟨hne, hblank⟩ := mnemonic_text i
  have hmnemonic : Trimmed (mnemonic i).toList := .of_no_blank hne hblank
  cases hops : listOperands busName i with
  | nil =>
    simp only [assemble, listing_of_no_operands hops, hmnemonic.trimBlanks_eq,
      splitFirst_of_not_mem hblank, tagOfMnemonic_mnemonic]
    simp [trimBlanks, Option.map_eq_bind]
  | cons x xs =>
    rw [hops] at h
    have hrest : Trimmed ([',', ' '].intercalate (x :: xs)) :=
      trimmed_intercalate _ fun y hy => (h y hy).trimmed
    have hline : Trimmed ((mnemonic i).toList ++ ' ' :: [',', ' '].intercalate (x :: xs)) := by
      simpa using hmnemonic.append hrest [' ']
    simp only [assemble, listing_of_operands hops, hline.trimBlanks_eq, splitFirst_append hblank,
      tagOfMnemonic_mnemonic, Option.getD_some, hrest.trimBlanks_eq, Option.bind_eq_bind,
      Option.bind_some]
    rw [if_neg (by simp [hrest.ne_nil]), parseOperands_splitCommas names _ h]
    simp [Option.map_eq_bind]

theorem operandText_of_digits {cs : List Char} (hne : cs ≠ [])
    (h : ∀ c ∈ cs, c.isDigit = true ∨ c = '-' ∨ c = '/') : OperandText cs where
  ne_nil := hne
  no_comma hc := by simpa using h _ hc
  no_blank hc := by simpa using h _ hc

theorem isDigit_or_of_mem_toDigits {n : Nat} {c : Char} (h : c ∈ Nat.toDigits 10 n) :
    c.isDigit = true ∨ c = '-' ∨ c = '/' :=
  .inl (Nat.isDigit_of_mem_toDigits (by decide) (by decide) h)

theorem operandText_listInt (v : Int) : OperandText (listInt v) := by
  rw [listInt]
  split
  · refine operandText_of_digits (by simp) fun c hc => ?_
    rcases List.mem_cons.mp hc with rfl | hc
    · simp
    · exact isDigit_or_of_mem_toDigits hc
  · exact operandText_of_digits Nat.toDigits_ne_nil fun c => isDigit_or_of_mem_toDigits

theorem operandText_listRat (q : Rat) : OperandText (listRat q) := by
  have hmagnitude : ∀ c ∈ listMagnitude q, c.isDigit = true ∨ c = '-' ∨ c = '/' := fun c hc => by
    rcases List.mem_append.mp hc with hc | hc
    · exact isDigit_or_of_mem_toDigits hc
    · split at hc
      · simp at hc
      · rcases List.mem_cons.mp hc with rfl | hc
        · simp
        · exact isDigit_or_of_mem_toDigits hc
  rw [listRat_eq]
  split
  · refine operandText_of_digits (by simp) fun c hc => ?_
    rcases List.mem_cons.mp hc with rfl | hc
    · simp
    · exact hmagnitude c hc
  · exact operandText_of_digits (by simp [listMagnitude, Nat.toDigits_ne_nil]) hmagnitude

theorem operandText_listBool (v : Bool) : OperandText (listBool v) := by
  cases v <;> constructor <;> simp [listBool]

theorem operandText_bus {name : List Char} (h : ∀ ch ∈ name, ch ≠ ',' ∧ ch ≠ ' ') :
    OperandText ('@' :: name) where
  ne_nil := by simp
  no_comma hc := by
    rcases List.mem_cons.mp hc with hc | hc
    · simp at hc
    · exact (h _ hc).1 rfl
  no_blank hc := by
    rcases List.mem_cons.mp hc with hc | hc
    · simp at hc
    · exact (h _ hc).2 rfl

theorem listOperands_texts {busName : BusConfig → List Char} {i : Instr}
    (hbus : ∀ p c, i = .construct p c → ∀ ch ∈ busName c, ch ≠ ',' ∧ ch ≠ ' ') :
    ∀ x ∈ listOperands busName i, OperandText x := by
  cases i with
  | construct p c => simp [listOperands, operandText_listInt, operandText_bus (hbus p c rfl)]
  | setField | getField | setChannel | getChannel | setAll | setAllOff | setBrightness
  | setFunctionControl | showFrame | deinit =>
    simp [listOperands, operandText_listInt, operandText_listRat, operandText_listBool]

@[simp] theorem parseOperand_listInt (names : BusNames) (v : Int) :
    parseOperand names .int (trimBlanks (listInt v)) = some (.ofInt v) := by
  rw [(operandText_listInt v).trimmed.trimBlanks_eq, parseOperand, parseInt_listInt,
    Option.map_some]

@[simp] theorem parseOperand_listRat (names : BusNames) (q : Rat) :
    parseOperand names .rat (trimBlanks (listRat q)) = some (.number q) := by
  rw [(operandText_listRat q).trimmed.trimBlanks_eq, parseOperand, parseRat_listRat,
    Option.map_some]

@[simp] theorem parseOperand_listBool (names : BusNames) (v : Bool) :
    parseOperand names .bool (trimBlanks (listBool v)) = some (.ofBool v) := by
  cases v <;> rfl

theorem parseOperand_bus {names : BusNames} {name : List Char} {c : BusConfig}
    (hname : ∀ ch ∈ name, ch ≠ ',' ∧ ch ≠ ' ') (hlookup : names.lookup name = some c) :
    parseOperand names .busConfig (trimBlanks ('@' :: name)) = some (.bus c) := by
  rw [(operandText_bus hname).trimmed.trimBlanks_eq, parseOperand, hlookup, Option.map_some]

theorem parseOperands_listOperands {names : BusNames} {busName : BusConfig → List Char} {i : Instr}
    (hbus : ∀ p c, i = .construct p c →
      names.lookup (busName c) = some c ∧ ∀ ch ∈ busName c, ch ≠ ',' ∧ ch ≠ ' ') :
    parseOperands names i.tag.operandTypes (listOperands busName i) = some i.operands := by
  cases i with
  | construct p c =>
    obtain ⟨hlookup, hname⟩ := hbus p c rfl
    simp [Instr.tag, Tag.operandTypes, listOperands, parseOperands, Instr.operands,
      parseOperand_bus hname hlookup]
  | setField | getField | setChannel | getChannel | setAll | setAllOff | setBrightness
  | setFunctionControl | showFrame | deinit =>
    simp [Instr.tag, Tag.operandTypes, listOperands, parseOperands, Instr.operands]

/-! ### A line that assembles -/

theorem parseOperand_hasType {names : BusNames} {t : OperandType} {cs : List Char} {x : Operand}
    (h : parseOperand names t cs = some x) : x.hasType t = true := by
  unfold parseOperand at h
  split at h <;> simp only [Option.map_eq_some_iff, Option.some.injEq, reduceCtorEq] at h
  · obtain ⟨n, -, rfl⟩ := h
    exact Operand.hasType_ofInt n
  · obtain ⟨q, -, rfl⟩ := h
    exact Operand.hasType_number q
  · exact h ▸ Operand.hasType_ofBool false
  · exact h ▸ Operand.hasType_ofBool true
  · obtain ⟨c, -, rfl⟩ := h
    exact Operand.hasType_bus c

theorem parseOperands_fit {names : BusNames} {ts : List OperandType} {xs : List (List Char)}
    {ys : List Operand} (h : parseOperands names ts xs = some ys) : operandsFit ts ys = true := by
  induction ts generalizing xs ys with
  | nil =>
    cases xs <;> simp only [parseOperands, Option.some.injEq, reduceCtorEq] at h
    exact h ▸ rfl
  | cons t ts ih =>
    cases xs with
    | nil => simp [parseOperands] at h
    | cons x xs =>
      simp only [parseOperands, Option.bind_eq_bind, Option.bind_eq_some_iff, Option.pure_def,
        Option.some.injEq] at h
      obtain ⟨y, hy, zs, hzs, rfl⟩ := h
      exact operandsFit_cons_iff.mpr ⟨y, zs, rfl, parseOperand_hasType hy, ih hzs⟩

theorem tagOfMnemonic_legal {name : List Char} {tag : Tag} (h : tagOfMnemonic name = some tag) :
    tag.legal := by
  have hrows : ∀ row ∈ mnemonicTable, row.2.legal := by decide
  obtain ⟨row, hrow, rfl⟩ := Option.map_eq_some_iff.mp h
  exact hrows row (List.mem_of_find?_eq_some hrow)

theorem wellFormed_of_assemble {names : BusNames} {line : List Char} {r : Record}
    (h : assemble names line = some r) : r.wellFormed := by
  simp only [assemble, Option.bind_eq_bind, Option.bind_eq_some_iff, Option.pure_def,
    Option.some.injEq] at h
  obtain ⟨tag, htag, operands, hoperands, rfl⟩ := h
  exact ⟨tagOfMnemonic_legal htag, parseOperands_fit hoperands⟩

/-- Settles O8: the tag table and the operand parsers give well-formed records only, and a listing
comes apart into its mnemonic and operand texts, each of which is read back. -/
theorem assembledLinesAreCommands : Obligations.AssembledLinesAreCommands := by
  unfold Obligations.AssembledLinesAreCommands
  refine fun names => ⟨fun line r => wellFormed_of_assemble, fun busName i hbus => ?_⟩
  rw [assemble_listing names (listOperands_texts fun p c hi => (hbus p c hi).2),
    parseOperands_listOperands hbus]
  rfl

/-! ### What a listing shows -/

theorem takeWhile_listing (busName : BusConfig → List Char) (i : Instr) :
    (listing busName i).takeWhile (fun ch => ch != ' ') = (mnemonic i).toList := by
  obtain ⟨-, hblank⟩ := mnemonic_text i
  have hall : ∀ ch ∈ (mnemonic i).toList, (ch != ' ') = true := fun ch hch =>
    bne_iff_ne.mpr (ne_of_mem_of_not_mem hch hblank)
  cases hops : listOperands busName i with
  | nil => rw [listing_of_no_operands hops, List.takeWhile_eq_self_iff.mpr hall]
  | cons x xs =>
    rw [listing_of_operands hops, List.takeWhile_append_of_pos hall,
      List.takeWhile_cons_of_neg (by simp), List.append_nil]

/-- Settles O9: up to its first blank a listing is its mnemonic, and the tag table tells tags apart
by their mnemonics. -/
theorem listingShowsTheCommand : Obligations.ListingShowsTheCommand := by
  unfold Obligations.ListingShowsTheCommand
  refine ⟨fun busName i => ⟨(mnemonic i, i.tag), ?row, rfl, takeWhile_listing busName i⟩,
    fun busName busName' i i' h => tag_eq_iff_mnemonic_eq.mpr ?mnemonics⟩
  case row => cases i <;> simp [mnemonic, Instr.tag]
  case mnemonics =>
    rw [← String.toList_inj, ← takeWhile_listing busName i, h, takeWhile_listing]

end Sys2Proof.Machine
end

section
/-! The machine-wide rules of 10_state.md and 60_exceptions.md: who writes which element, what a
command returns, and what a stopped block does. -/

namespace Sys2Proof.Machine

/-! ### Stops -/

/-- A stopped block answers every command with its stop, CONSTRUCT included
(60_exceptions.md R209). -/
theorem exec_of_halted {s : State} {stop : Stop} (h : s.block.halt = some stop) (i : Instr) :
    exec i s = .next (s.reply (.stopped stop)) := by
  cases i with
  | construct => exact unlessStopped_some h _
  | setField | getField | setChannel | getChannel | setAll | setAllOff | setBrightness
  | setFunctionControl | showFrame | deinit => exact commonChecks_some h _

/-- Settles O21: the first check answers the stop, for a command and for an illegal tag alike. -/
theorem stopIsSticky : Obligations.StopIsSticky := by
  unfold Obligations.StopIsSticky
  intro s stop hhalt
  refine ⟨fun i => ⟨_, exec_of_halted hhalt i, rfl, rfl, rfl⟩, fun r rest hpending hillegal => ?_⟩
  refine ⟨(s.withPending rest).reply (.stopped stop), ?_, rfl, rfl, rfl⟩
  rw [step_of_pending hpending, runRecord_of_illegal hillegal]
  exact unlessStopped_some (by rwa [State.withPending_block]) _

theorem refuseTag_completes (tag : Tag) (s : State) : ∃ t, refuseTag tag s = .next t := by
  cases hhalt : s.block.halt with
  | some stop => exact ⟨_, unlessStopped_some hhalt _⟩
  | none => exact ⟨_, unlessStopped_none hhalt _⟩

/-- A stop is returned, and nothing but the stop and the result is written. -/
theorem StopTaken.elim {s t : State} (h : StopTaken s t) :
    ∃ stop, t = (s.withBlock (s.block.withHalt stop)).reply (.stopped stop) ∧
      (s.block.halt = none ∨ s.block.halt = some stop) := by
  obtain ⟨stop, hhalt, rfl⟩ | ⟨hhalt, stop, rfl⟩ := h
  · refine ⟨stop, ?_, .inr hhalt⟩
    rw [Block.withHalt, ← hhalt]
    rfl
  · exact ⟨stop, rfl, .inl hhalt⟩

/-! ### The port and the parameters -/

theorem State.afterEmit_pending (cfg : BusConfig) (s : State) :
    (s.afterEmit cfg).port.pending = s.port.pending := by
  rw [State.afterEmit_port, State.reply_port, State.withPort_port, Port.askTransmit_snd]

theorem Port.askBusOpen_results (cfg : BusConfig) (p : Port) :
    (p.askBusOpen cfg).2.results = p.results := by
  rw [Port.askBusOpen_snd]

theorem Port.askBusOpen_pending (cfg : BusConfig) (p : Port) :
    (p.askBusOpen cfg).2.pending = p.pending := by
  rw [Port.askBusOpen_snd]

theorem Did.returns_one {i : Instr} {s t : State} (h : Did i s t) :
    ∃ r, t.port.results = s.port.results ++ [r] ∧ t.port.pending = s.port.pending := by
  cases h with
  | stop hstop =>
    obtain ⟨stop, rfl, -⟩ := hstop.elim
    exact ⟨_, rfl, rfl⟩
  | value | reject | buffer | functionControl | released => exact ⟨_, rfl, rfl⟩
  | rejectOpen | built =>
    exact ⟨_, congrArg (· ++ [_]) (Port.askBusOpen_results _ _), Port.askBusOpen_pending _ _⟩
  | brightness | shown =>
    exact ⟨_, State.afterEmit_results _ _, State.afterEmit_pending _ _⟩

/-- Settles O14: each thing a command can do ends in one reply. -/
theorem everyCommandReturnsOneResult : Obligations.EveryCommandReturnsOneResult := by
  unfold Obligations.EveryCommandReturnsOneResult
  exact fun i s t h => (exec_did h).returns_one

theorem StopTaken.config_eq {s t : State} (h : StopTaken s t) : t.config = s.config := by
  obtain ⟨stop, rfl, -⟩ := h.elim
  rfl

theorem Did.config_eq {i : Instr} {s t : State} (h : Did i s t) : t.config = s.config := by
  cases h with
  | stop hstop => exact hstop.config_eq
  | value | reject | rejectOpen | buffer | functionControl | brightness | shown | released
  | built => rfl

/-- Settles O15: waiting, a command and an answered tag all keep the parameters. -/
theorem parametersNeverChange : Obligations.ParametersNeverChange := by
  unfold Obligations.ParametersNeverChange
  intro s t h
  obtain ⟨-, rfl⟩ | ⟨r, rest, -, ⟨i, -, hexec⟩ | hstop⟩ := step_did h
  · rfl
  · exact (exec_did hexec).config_eq
  · exact hstop.config_eq

/-! ### The writers of the state elements -/

theorem Did.halt_writer {i : Instr} {s t : State} (h : Did i s t) :
    t.block.halt = s.block.halt ∨
      (s.block.halt = none ∧ ∃ stop, t.block.halt = some stop ∧
        t.port.results = s.port.results ++ [.stopped stop]) := by
  cases h with
  | stop hstop =>
    obtain ⟨stop, -, rfl⟩ | ⟨hnone, stop, rfl⟩ := hstop
    · exact .inl rfl
    · exact .inr ⟨hnone, stop, rfl, rfl⟩
  | value | reject | rejectOpen | buffer | functionControl | brightness | shown | released
  | built => exact .inl rfl

theorem Did.txlog_writer {i : Instr} {s t : State} (h : Did i s t) (hshow : i.tag ≠ 0x0A#8)
    (hbrightness : i.tag ≠ 0x08#8) : t.block.txlog = s.block.txlog := by
  cases h with
  | stop hstop => exact hstop.txlog_eq
  | brightness _ hi => exact absurd hi hbrightness
  | shown _ hi => exact absurd hi hshow
  | value | reject | rejectOpen | buffer | functionControl | released | built => rfl

/-- The elements that CONSTRUCT and DEINIT alone write (10_state.md, section 9). -/
def Block.SameDriver (b b' : Block) : Prop :=
  b'.pixels = b.pixels ∧ b'.chips = b.chips ∧ b'.channels = b.channels ∧
    b'.frameLen = b.frameLen ∧ b'.lut = b.lut ∧ b'.bus = b.bus ∧ b'.life = b.life

theorem Did.sameDriver {i : Instr} {s t : State} (h : Did i s t) (hconstruct : i.tag ≠ 0x01#8)
    (hdeinit : i.tag ≠ 0x0B#8) : s.block.SameDriver t.block := by
  cases h with
  | stop hstop =>
    obtain ⟨stop, rfl, -⟩ := hstop.elim
    exact ⟨rfl, rfl, rfl, rfl, rfl, rfl, rfl⟩
  | released _ hi => exact absurd hi hdeinit
  | built _ _ hi => exact absurd hi hconstruct
  | value | reject | rejectOpen | buffer | functionControl | brightness | shown =>
    exact ⟨rfl, rfl, rfl, rfl, rfl, rfl, rfl⟩

theorem Did.brightness_writer {i : Instr} {s t : State} (h : Did i s t)
    (hconstruct : i.tag ≠ 0x01#8) (hdeinit : i.tag ≠ 0x0B#8) (hbrightness : i.tag ≠ 0x08#8) :
    t.block.bcr = s.block.bcr ∧ t.block.bcg = s.block.bcg ∧ t.block.bcb = s.block.bcb := by
  cases h with
  | stop hstop =>
    obtain ⟨stop, rfl, -⟩ := hstop.elim
    exact ⟨rfl, rfl, rfl⟩
  | released _ hi => exact absurd hi hdeinit
  | built _ _ hi => exact absurd hi hconstruct
  | brightness _ hi => exact absurd hi hbrightness
  | value | reject | rejectOpen | buffer | functionControl | shown => exact ⟨rfl, rfl, rfl⟩

theorem Did.functionControl_writer {i : Instr} {s t : State} (h : Did i s t)
    (hconstruct : i.tag ≠ 0x01#8) (hdeinit : i.tag ≠ 0x0B#8) (hcontrol : i.tag ≠ 0x09#8) :
    t.block.outtmg = s.block.outtmg ∧ t.block.extgck = s.block.extgck ∧
      t.block.tmgrst = s.block.tmgrst ∧ t.block.dsprpt = s.block.dsprpt ∧
      t.block.blank = s.block.blank := by
  cases h with
  | stop hstop =>
    obtain ⟨stop, rfl, -⟩ := hstop.elim
    exact ⟨rfl, rfl, rfl, rfl, rfl⟩
  | released _ hi => exact absurd hi hdeinit
  | built _ _ hi => exact absurd hi hconstruct
  | functionControl _ hi => exact absurd hi hcontrol
  | value | reject | rejectOpen | buffer | brightness | shown => exact ⟨rfl, rfl, rfl, rfl, rfl⟩

theorem Did.buf_kept {i : Instr} {s t : State} (h : Did i s t)
    (hread : i.tag = 0x03#8 ∨ i.tag = 0x05#8 ∨ i.tag = 0x0A#8) : t.block.buf = s.block.buf := by
  cases h with
  | stop hstop =>
    obtain ⟨stop, rfl, -⟩ := hstop.elim
    rfl
  | buffer _ hi => rcases hread with h | h | h <;> simp [h] at hi
  | functionControl _ hi | brightness _ hi | released _ hi | built _ _ hi =>
    rcases hread with h | h | h <;> simp [h] at hi
  | value | reject | rejectOpen | shown => rfl

/-- Settles O16, one lemma for each row of the table of writers. -/
theorem stateElementsHaveTheirWriters : Obligations.StateElementsHaveTheirWriters := by
  unfold Obligations.StateElementsHaveTheirWriters
  intro i s t h
  have hdid := exec_did h
  exact ⟨hdid.halt_writer, hdid.txlog_writer, fun hconstruct hdeinit =>
    ⟨hdid.sameDriver hconstruct hdeinit, hdid.brightness_writer hconstruct hdeinit,
      hdid.functionControl_writer hconstruct hdeinit, hdid.buf_kept⟩⟩

/-- Settles O17: of the things a command can do, a release and a construction alone write life. -/
theorem lifecycleMovesOnlyByConstructAndDeinit :
    Obligations.LifecycleMovesOnlyByConstructAndDeinit := by
  unfold Obligations.LifecycleMovesOnlyByConstructAndDeinit
  intro i s t h
  cases exec_did h with
  | stop hstop => exact .inl hstop.life_eq
  | built _ hlife hi => exact .inr (.inl ⟨hi, hlife, rfl⟩)
  | released hrun hi => exact .inr (.inr ⟨hi, hrun.2, rfl⟩)
  | value | reject | rejectOpen | buffer | functionControl | brightness | shown => exact .inl rfl

/-! ### Rejected calls -/

theorem result_eq_of_results_eq {l : List Result} {r r' : Result} (h : l ++ [r] = l ++ [r']) :
    r = r' :=
  List.singleton_inj.mp (List.append_cancel_left h)

/-- A command that returns an error is one that raises it, and unless the error is the transport's
the block is as before. -/
theorem Did.of_err {i : Instr} {s t : State} {e : CallError} (h : Did i s t)
    (hresults : t.port.results = s.port.results ++ [.err e]) :
    raisedBy i e ∧ (errorKind e ≠ .transportFault → t.block = s.block) := by
  cases h with
  | stop hstop =>
    obtain ⟨stop, rfl, -⟩ := hstop.elim
    cases result_eq_of_results_eq hresults
  | value | buffer | functionControl | released => cases result_eq_of_results_eq hresults
  | built =>
    rw [State.reply_port, State.withBlock_port, State.withPort_port,
      Port.askBusOpen_results] at hresults
    cases result_eq_of_results_eq hresults
  | reject _ e' he =>
    cases result_eq_of_results_eq hresults
    exact ⟨he, fun _ => rfl⟩
  | rejectOpen _ hi =>
    rw [State.reply_port, State.withPort_port, Port.askBusOpen_results] at hresults
    cases result_eq_of_results_eq hresults
    exact ⟨hi, fun _ => rfl⟩
  | brightness _ hi =>
    rw [State.afterEmit_results] at hresults
    obtain rfl := transmitResult_eq_err (result_eq_of_results_eq hresults)
    exact ⟨.inr hi, fun hkind => absurd rfl hkind⟩
  | shown _ hi =>
    rw [State.afterEmit_results] at hresults
    obtain rfl := transmitResult_eq_err (result_eq_of_results_eq hresults)
    exact ⟨.inl hi, fun hkind => absurd rfl hkind⟩

/-- Settles O19: `Did.of_err`, its clause on the block. -/
theorem rejectedCallsChangeNothing : Obligations.RejectedCallsChangeNothing := by
  unfold Obligations.RejectedCallsChangeNothing
  intro i s t e h hresults hkind
  obtain ⟨-, hblock⟩ := (exec_did h).of_err hresults
  exact hblock hkind

/-- Settles O20: `Did.of_err`, its clause on the command. -/
theorem errorsComeFromTheirCommands : Obligations.ErrorsComeFromTheirCommands := by
  unfold Obligations.ErrorsComeFromTheirCommands
  intro i s t e h hresults
  obtain ⟨hraised, -⟩ := (exec_did h).of_err hresults
  cases e <;> exact hraised

/-! ### The driver's end (43_lifecycle.md, section 3) -/

theorem exec_deinit (s : State) : exec .deinit s = execDeinit s := rfl

/-- Settles O58: DEINIT commits the released block. -/
theorem deinitReleasesTheDriver : Obligations.DeinitReleasesTheDriver := by
  unfold Obligations.DeinitReleasesTheDriver
  intro s hrun
  have hhalt := hrun.1
  exact ⟨_, (exec_deinit s).trans (execDeinit_ok hrun), rfl, rfl, hhalt, rfl, rfl, rfl, rfl⟩

/-- Settles O60: the released block takes the stop UseAfterRelease, and a stopped block answers
every command with its stop. -/
theorem useAfterReleaseStopsForGood : Obligations.UseAfterReleaseStopsForGood := by
  unfold Obligations.UseAfterReleaseStopsForGood
  intro i j s hrun htag
  have hhalt := hrun.1
  obtain ⟨-, hreleased, -⟩ := commandsOutsideTheirLifecycleStopTheBlock i
    ((s.withBlock s.block.afterDeinit).reply .ok) hhalt
  exact ⟨_, _, _, (exec_deinit s).trans (execDeinit_ok hrun), hreleased rfl htag, rfl, rfl,
    exec_of_halted rfl j, rfl, rfl⟩

end Sys2Proof.Machine
end

section
/-! What a command does on a machine that meets the invariant, with what it writes in the buffer:
`Effect` is `Did` (Laws/Inversion) with the contents of the written buffer, and every command has
one. -/

namespace Sys2Proof.Machine

/-! ### Rejections -/

theorem execSetField_of_geometry_bad {o b w : Int} {s : State} (v : Int) (hrun : s.Running)
    (hf : ¬ fieldOK s.block.frameLen o b w) :
    execSetField o b w v s = .next (s.reply (.err .fieldGeometry)) := by
  rw [execSetField, commonChecks_running hrun, if_neg hf, raise]

theorem execGetField_of_geometry_bad {o b w : Int} {s : State} (hrun : s.Running)
    (hf : ¬ fieldOK s.block.frameLen o b w) :
    execGetField o b w s = .next (s.reply (.err .fieldGeometry)) := by
  rw [execGetField, commonChecks_running hrun, if_neg hf, raise]

theorem execSetAll_of_value_bad {p : Rat} {s : State} (hrun : s.Running)
    (hp : ¬ pwmOK (pctToPwm s.config.conversion p)) :
    execSetAll p s = .next (s.reply (.err .pwmValue)) := by
  rw [execSetAll, commonChecks_running hrun]
  exact if_neg hp

theorem execConstruct_of_aboveCapacity {p : Int} {s : State} (bus : BusConfig)
    (hhalt : s.block.halt = none) (hlife : s.block.life ≠ .ready)
    (hcap : aboveCapacity s.config.maxPixels p = true) :
    execConstruct p bus s = takeStop (.refused (.capacityExceeded p)) s :=
  (unlessStopped_none hhalt _).trans ((if_neg hlife).trans (if_pos hcap))

theorem execConstruct_of_count_bad {p : Int} {s : State} (bus : BusConfig)
    (hhalt : s.block.halt = none) (hlife : s.block.life ≠ .ready)
    (hcap : ∀ m, s.config.maxPixels = some m → p ≤ m) (hp : ¬ pixelCountOK p) :
    execConstruct p bus s = .next (s.reply (.err .badPixelCount)) := by
  have hbelow : ¬ aboveCapacity s.config.maxPixels p = true := by
    simp [aboveCapacity_eq_false.mpr hcap]
  exact (unlessStopped_none hhalt _).trans
    ((if_neg hlife).trans ((if_neg hbelow).trans (if_neg hp)))

theorem aboveCapacity_eq_true {o : Option Nat} {p : Int} :
    aboveCapacity o p = true ↔ ∃ m, o = some m ∧ (m : Int) < p := by
  cases o <;> simp [aboveCapacity]

/-- Settles O53: the capacity check comes first and stops the block; past it the pixel count alone
decides, because a count that is accepted ends in BusOpenFailed or Ok. -/
theorem constructChecksThePixelCount : Obligations.ConstructChecksThePixelCount := by
  unfold Obligations.ConstructChecksThePixelCount
  intro p cfg s hhalt hlife
  simp only [exec_construct]
  refine ⟨fun habove => ?capacity, fun hcap => ⟨fun h hp => ?accepted, ?rejected⟩⟩
  case capacity =>
    rw [execConstruct_of_aboveCapacity cfg hhalt hlife (aboveCapacity_eq_true.mpr habove), takeStop]
  case rejected => exact execConstruct_of_count_bad cfg hhalt hlife hcap
  case accepted =>
    have hresults := Port.askBusOpen_results cfg s.port
    cases hopen : (s.port.askBusOpen cfg).1 with
    | fail =>
      rw [execConstruct_of_open_fails hhalt hlife hcap hp hopen] at h
      cases State.result_eq_of_reply_eq hresults (Host.Outcome.next.inj h)
    | ok =>
      obtain ⟨m, hbuilt, -⟩ := execConstruct_ok hhalt hlife hcap hp hopen
      rw [hbuilt] at h
      cases State.result_eq_of_reply_eq hresults (Host.Outcome.next.inj h)

/-! ### The effect of a command -/

/-- One slot written. -/
theorem slotsWritten_one {m : Memory} (hm : m.wf) (j : Nat) (v : Slot) :
    SlotsWritten (fun k => k = j) v m (m.write16 (channelOffset j) v) :=
  slotsWritten_write (p := fun _ => False)
    ⟨hm, fun _ _ hbound => hbound, fun _ => False.elim, fun _ _ => rfl⟩ fun _ => by simp

/-- What the command `i` does between `s`, of the invariant, and `t`. -/
inductive Effect (i : Instr) (s : State) : State → Prop
  /-- A stop answered or taken. -/
  | stop {t : State} (h : StopTaken s t) : Effect i s t
  /-- A value returned or a call rejected. -/
  | replied (r : Result) : Effect i s (s.reply r)
  /-- A construction rejected by the bus. -/
  | rejectOpen (bus : BusConfig) :
      Effect i s ((s.withPort (s.port.askBusOpen bus).2).reply (.err .busOpenFailed))
  /-- One word of the buffer rewritten by the codec. -/
  | field (hr : s.Running) (hi : i.tag = 0x02#8) (o b w : Nat) (v : Int)
      (ho : o + 4 ≤ s.block.frameLen) :
      Effect i s ((s.withBlock (s.block.withBuf (s.block.buf.write32 o
        (insertField (s.block.buf.read32 o) b w v)))).reply .ok)
  /-- Some channels' slots written. -/
  | slots (hr : s.Running) (p : Nat → Prop) (v : Slot) (m : Memory)
      (hp : ∀ j, p j → j < s.block.channels) (hm : SlotsWritten p v s.block.buf m) :
      Effect i s ((s.withBlock (s.block.withBuf m)).reply .ok)
  /-- The function-control registers and every header's flags written. -/
  | functionControl (hr : s.Running) (ot eg tr dr bl : Bool) (m : Memory)
      (hm : HeadersRewritten s.block.chips (fcWord ot eg tr dr bl) s.block.buf m) :
      Effect i s ((s.withBlock ((s.block.withFunctionControl ot eg tr dr bl).withBuf m)).reply .ok)
  /-- The brightness registers and every header's brightness written, the buffer transmitted. -/
  | brightness (hr : s.Running) (r g b : Brightness) (m : Memory) (cfg : BusConfig)
      (hm : HeadersRewritten s.block.chips (bcWord r g b) s.block.buf m) :
      Effect i s ((s.withBlock ((s.block.withBrightness r g b).withBuf m)).afterEmit cfg)
  /-- The buffer transmitted. -/
  | shown (hr : s.Running) (cfg : BusConfig) : Effect i s (s.afterEmit cfg)
  /-- The driver released. -/
  | released (hi : i.tag = 0x0B#8) : Effect i s ((s.withBlock s.block.afterDeinit).reply .ok)
  /-- A driver built, every header from the fresh registers. -/
  | built (hi : i.tag = 0x01#8) (pixels : Nat) (hpos : 0 < pixels) (hmod : pixels % 4 = 0)
      (bus : BusConfig) (m : Memory)
      (hm : HeadersRewritten (chipCount pixels)
        (fun _ => (Block.fresh s.config pixels bus s.block).registerHeader s.config.writeCmd)
        [] m) :
      Effect i s (((s.withPort (s.port.askBusOpen bus).2).withBlock
        ((Block.fresh s.config pixels bus s.block).withBuf m)).reply .ok)

/-- A command completes on `s`, with an effect. -/
def Completes (i : Instr) (s : State) : Prop := ∃ t, exec i s = .next t ∧ Effect i s t

theorem commonChecks_of_not_running {s : State} (h : ¬ s.Running) (k : Outcome) :
    ∃ t, commonChecks s k = .next t ∧ StopTaken s t := by
  cases hhalt : s.block.halt with
  | some stop => exact ⟨_, commonChecks_some hhalt k, .inl ⟨stop, hhalt, rfl⟩⟩
  | none =>
    cases hlife : s.block.life with
    | unconfigured => exact ⟨_, commonChecks_unconfigured hhalt hlife k, .inr ⟨hhalt, _, rfl⟩⟩
    | released => exact ⟨_, commonChecks_released hhalt hlife k, .inr ⟨hhalt, _, rfl⟩⟩
    | ready => exact absurd ⟨hhalt, hlife⟩ h

theorem completes_of_not_running {i : Instr} {s : State} (hi : i.tag ≠ 0x01#8)
    (h : ¬ s.Running) : Completes i s := by
  obtain ⟨k, hexec⟩ := exec_eq_commonChecks hi s
  obtain ⟨t, ht, hstop⟩ := commonChecks_of_not_running h k
  exact ⟨t, hexec.trans ht, .stop hstop⟩

theorem completes_construct (p : Int) (bus : BusConfig) (s : State) :
    Completes (.construct p bus) s := by
  cases hhalt : s.block.halt with
  | some stop => exact ⟨_, exec_of_halted hhalt _, .stop (.inl ⟨stop, hhalt, rfl⟩)⟩
  | none =>
    by_cases hlife : s.block.life = .ready
    · exact ⟨_, execConstruct_ready hhalt hlife p bus, .stop (.inr ⟨hhalt, _, rfl⟩)⟩
    cases hcap : aboveCapacity s.config.maxPixels p with
    | true =>
      exact ⟨_, execConstruct_of_aboveCapacity bus hhalt hlife hcap, .stop (.inr ⟨hhalt, _, rfl⟩)⟩
    | false =>
      rw [aboveCapacity_eq_false] at hcap
      by_cases hp : pixelCountOK p
      · cases hopen : (s.port.askBusOpen bus).1 with
        | fail => exact ⟨_, execConstruct_of_open_fails hhalt hlife hcap hp hopen, .rejectOpen bus⟩
        | ok =>
          obtain ⟨m, hexec, hm⟩ := execConstruct_ok hhalt hlife hcap hp hopen
          obtain ⟨hpos, hmod⟩ := hp
          exact ⟨_, hexec, .built rfl p.toNat (by omega) (by omega) bus m hm⟩
      · exact ⟨_, execConstruct_of_count_bad bus hhalt hlife hcap hp, .replied _⟩

theorem completes_setField (o b w v : Int) {s : State} (hrun : s.Running) :
    Completes (.setField o b w v) s := by
  by_cases hf : fieldOK s.block.frameLen o b w
  · have hlen : o.toNat + 4 ≤ s.block.frameLen := by obtain ⟨_, _, _⟩ := hf; omega
    exact ⟨_, execSetField_ok hrun hf, .field hrun rfl _ _ _ _ hlen⟩
  · exact ⟨_, execSetField_of_geometry_bad v hrun hf, .replied _⟩

theorem completes_getField (o b w : Int) {s : State} (hrun : s.Running) :
    Completes (.getField o b w) s := by
  by_cases hf : fieldOK s.block.frameLen o b w
  · exact ⟨_, execGetField_ok hrun hf, .replied _⟩
  · exact ⟨_, execGetField_of_geometry_bad hrun hf, .replied _⟩

theorem completes_setChannel (i : Int) (p : Rat) {s : State} (hrun : s.Running) (hinv : s.Inv) :
    Completes (.setChannel i p) s := by
  by_cases hi : channelOK s.block.channels i
  · by_cases hp : pwmOK (pctToPwm s.config.conversion p)
    · obtain ⟨hi0, hi1⟩ := hi
      exact ⟨_, execSetChannel_ok hrun hinv hi0 hi1 hp,
        .slots hrun _ _ _ (fun _ hj => by omega) (slotsWritten_one hinv.1 _ _)⟩
    · exact ⟨_, execSetChannel_of_value_bad hrun hi hp, .replied _⟩
  · exact ⟨_, execSetChannel_of_index_bad p hrun hi, .replied _⟩

theorem completes_getChannel (i : Int) {s : State} (hrun : s.Running) (hinv : s.Inv) :
    Completes (.getChannel i) s := by
  by_cases hi : channelOK s.block.channels i
  · exact ⟨_, execGetChannel_ok hrun hinv hi.1 hi.2, .replied _⟩
  · exact ⟨_, execGetChannel_of_index_bad hrun hi, .replied _⟩

theorem completes_setAll (p : Rat) {s : State} (hrun : s.Running) (hinv : s.Inv) :
    Completes (.setAll p) s := by
  by_cases hp : pwmOK (pctToPwm s.config.conversion p)
  · obtain ⟨m, hexec, hm⟩ := execSetAll_ok hrun hinv hp
    exact ⟨_, hexec, .slots hrun _ _ m (fun _ hj => hj) hm⟩
  · exact ⟨_, execSetAll_of_value_bad hrun hp, .replied _⟩

/-- Every command completes on a machine of the invariant: the forward lemmas of Laws/Commands cover
the running driver, and the checks stop every command but CONSTRUCT elsewhere. -/
theorem completes (i : Instr) {s : State} (hinv : s.Inv) : Completes i s := by
  by_cases hconstruct : i.tag = 0x01#8
  · obtain ⟨p, bus, rfl⟩ := eq_construct_of_tag hconstruct
    exact completes_construct p bus s
  by_cases hrun : s.Running
  · obtain ⟨cfg, hbus⟩ := hrun.bus_opened hinv
    cases i with
    | construct => exact absurd rfl hconstruct
    | setField o b w v => exact completes_setField o b w v hrun
    | getField o b w => exact completes_getField o b w hrun
    | setChannel i p => exact completes_setChannel i p hrun hinv
    | getChannel i => exact completes_getChannel i hrun hinv
    | setAll p => exact completes_setAll p hrun hinv
    | setAllOff =>
      obtain ⟨m, hexec, hm⟩ := execSetAllOff_ok hrun hinv
      exact ⟨_, hexec, .slots hrun _ _ m (fun _ hj => hj) hm⟩
    | setBrightness =>
      obtain ⟨m, hexec, hm⟩ := execSetBrightness_ok hrun hinv hbus
      exact ⟨_, hexec, .brightness hrun _ _ _ m cfg hm⟩
    | setFunctionControl =>
      obtain ⟨m, hexec, hm⟩ := execSetFunctionControl_ok hrun hinv
      exact ⟨_, hexec, .functionControl hrun _ _ _ _ _ m hm⟩
    | showFrame => exact ⟨_, execShow_ok hrun hbus, .shown hrun cfg⟩
    | deinit => exact ⟨_, execDeinit_ok hrun, .released rfl⟩
  · exact completes_of_not_running hconstruct hrun

theorem exec_effect {i : Instr} {s t : State} (hinv : s.Inv) (h : exec i s = .next t) :
    Effect i s t := by
  obtain ⟨t', ht', heffect⟩ := completes i hinv
  rw [h] at ht'
  exact Host.Outcome.next.inj ht' ▸ heffect

/-- Settles O12: `completes`, without the effect. -/
theorem everyCommandCompletes : Obligations.EveryCommandCompletes := by
  unfold Obligations.EveryCommandCompletes
  intro i s hinv
  obtain ⟨t, hexec, -⟩ := completes i hinv
  exact ⟨t, hexec⟩

/-- Settles O13, by the record at the head of the port: none, a command, one whose operands do not
fit, or one whose tag is no command's. -/
theorem stepIsRefusedOnlyOnIllTypedRecords : Obligations.StepIsRefusedOnlyOnIllTypedRecords := by
  unfold Obligations.StepIsRefusedOnlyOnIllTypedRecords
  intro s hinv
  cases hpending : s.port.pending with
  | nil => exact .inl ⟨s, step_of_no_pending hpending⟩
  | cons r rest =>
    by_cases hlegal : r.tag.legal
    · cases hfit : operandsFit r.tag.operandTypes r.operands with
      | true =>
        obtain ⟨i, hdecode⟩ := wellFormed_iff_decodes.mp ⟨hlegal, hfit⟩
        obtain ⟨t, hexec, -⟩ := completes i (s := s.withPending rest) hinv
        exact .inl ⟨t, by rw [step_of_pending hpending, runRecord_of_decodes hdecode, hexec]⟩
      | false =>
        exact .inr ⟨r, rest, rfl, hlegal, hfit,
          illTypedRecordIsRefusedBeforeTheBlock s r rest hpending hlegal hfit⟩
    · obtain ⟨t, hrefused⟩ := refuseTag_completes r.tag (s.withPending rest)
      exact .inl ⟨t, by rw [step_of_pending hpending, runRecord_of_illegal hlegal, hrefused]⟩

/-! ### The invariant -/

/-- Settles O10: the block at power-on is `NoDriver` itself, with an empty buffer. -/
theorem resetMeetsTheInvariant : Obligations.ResetMeetsTheInvariant := by
  unfold Obligations.ResetMeetsTheInvariant
  exact ⟨⟨State.reset_buf_wf, fun _ hc => absurd hc List.not_mem_nil,
    fun hready => absurd hready (by decide), fun _ => rfl⟩, rfl, rfl, rfl, rfl⟩

theorem Block.inv_of_driverOK {b : Block} (hwf : b.buf.wf) (hbound : ∀ c ∈ b.buf, c.1 < b.frameLen)
    (hlife : b.life = .ready) (hok : b.DriverOK) : b.Inv :=
  ⟨hwf, hbound, fun _ => hok, fun hnot => absurd hlife hnot⟩

theorem Block.Inv.withHalt {b : Block} (h : b.Inv) (stop : Stop) : (b.withHalt stop).Inv := by
  obtain ⟨hwf, hbound, hready, hnone⟩ := h
  exact ⟨hwf, hbound, hready, fun hlife => congrArg (Block.withHalt stop) (hnone hlife)⟩

theorem Block.afterDeinit_inv (b : Block) : b.afterDeinit.Inv :=
  ⟨Memory.wf_nil, fun _ hc => absurd hc List.not_mem_nil, fun hready => absurd hready (by simp),
    fun _ => rfl⟩

theorem Block.fresh_driverOK (cfg : Config) {n : Nat} (hpos : 0 < n) (hmod : n % 4 = 0)
    (bus : BusConfig) (b : Block) : (Block.fresh cfg n bus b).DriverOK :=
  ⟨hpos, hmod, rfl, rfl, rfl, rfl, fun hclosed => nomatch hclosed⟩

theorem StopTaken.inv {s t : State} (h : StopTaken s t) (hinv : s.Inv) : t.Inv := by
  obtain ⟨stop, rfl, -⟩ := h.elim
  exact Block.Inv.withHalt hinv stop

theorem Effect.inv {i : Instr} {s t : State} (h : Effect i s t) (hinv : s.Inv) : t.Inv := by
  have hwf := hinv.1
  have hbound := hinv.2.1
  cases h with
  | stop hstop => exact hstop.inv hinv
  | replied | rejectOpen => exact hinv
  | field hrun _ o b w v ho =>
    exact Block.inv_of_driverOK (Memory.wf_write32 hwf _ _) (Memory.bound_write32 hbound ho) hrun.2
      (hrun.driverOK hinv)
  | slots hrun p v m hp hm =>
    have hfits := (hrun.driverOK hinv).channelsOK.fits
    exact Block.inv_of_driverOK hm.wf (hm.bound _ (fun j hj => hfits j (hp j hj)) hbound) hrun.2
      (hrun.driverOK hinv)
  | functionControl hrun _ _ _ _ _ m hm | brightness hrun _ _ _ m _ hm =>
    have hok := hrun.driverOK hinv
    exact Block.inv_of_driverOK hm.wf (hm.bound _ hok.headersFit hbound) hrun.2 hok
  | shown hrun => exact Block.inv_of_driverOK hwf hbound hrun.2 (hrun.driverOK hinv)
  | released => exact s.block.afterDeinit_inv
  | built _ n hpos hmod bus m hm =>
    exact Block.inv_of_driverOK hm.wf
      (hm.bound _ (Nat.le_refl _) fun _ hc => absurd hc List.not_mem_nil) rfl
      (Block.fresh_driverOK s.config hpos hmod bus s.block)

/-- Settles O11: a step waits, answers an illegal tag with a stop, or has a command's effect, and
each keeps the invariant. -/
theorem stepKeepsTheInvariant : Obligations.StepKeepsTheInvariant := by
  unfold Obligations.StepKeepsTheInvariant
  intro s t hinv h
  obtain ⟨-, rfl⟩ | ⟨r, rest, -, ⟨i, -, hexec⟩ | hstop⟩ := step_did h
  · exact hinv
  · exact (exec_effect (s := s.withPending rest) hinv hexec).inv hinv
  · exact hstop.inv hinv

/-! ### Headers and registers -/

theorem extractLsb'_headerWord_wc (wc : BitVec 6) (fc : BitVec 5) (bc : BitVec 21) :
    (headerWord wc fc bc).extractLsb' 26 6 = wc :=
  (BitVec.extractLsb'_append_eq_of_le (by decide)).trans BitVec.extractLsb'_append_eq_left

theorem extractLsb'_headerWord_wc_fc (wc : BitVec 6) (fc : BitVec 5) (bc : BitVec 21) :
    (headerWord wc fc bc).extractLsb' 21 11 = wc ++ fc :=
  BitVec.extractLsb'_append_eq_left

theorem extractLsb'_headerWord_bc (wc : BitVec 6) (fc : BitVec 5) (bc : BitVec 21) :
    (headerWord wc fc bc).extractLsb' 0 21 = bc :=
  BitVec.extractLsb'_append_eq_right

/-- A new FC field in a header word replaces the old one. -/
theorem fcWord_headerWord (ot eg tr dr bl : Bool) (wc : BitVec 6) (fc : BitVec 5) (bc : BitVec 21) :
    fcWord ot eg tr dr bl (headerWord wc fc bc) = headerWord wc (fcField ot eg tr dr bl) bc := by
  rw [fcWord_eq, extractLsb'_headerWord_wc, extractLsb'_headerWord_bc, headerWord]

/-- A new BC field in a header word replaces the old one. -/
theorem bcWord_headerWord (r g b : Brightness) (wc : BitVec 6) (fc : BitVec 5) (bc : BitVec 21) :
    bcWord r g b (headerWord wc fc bc) = headerWord wc fc (bcField r g b) := by
  rw [bcWord_eq, extractLsb'_headerWord_wc_fc, headerWord]

/-- Settles O29: a stop, a reply, slots and a transmission leave headers and registers; the
configuration commands write both alike; a new driver's headers are its registers'; and a released
one has no headers. -/
theorem headersKeepAgreeingWithTheRegisters : Obligations.HeadersKeepAgreeingWithTheRegisters := by
  unfold Obligations.HeadersKeepAgreeingWithTheRegisters
  intro i s t hinv hagree hi h c hc
  cases exec_effect hinv h with
  | stop hstop =>
    obtain ⟨stop, rfl, -⟩ := hstop.elim
    exact hagree c hc
  | replied | rejectOpen | shown => exact hagree c hc
  | field _ hfield => exact absurd hfield hi
  | slots _ p v m _ hm => exact (hm.header c).trans (hagree c hc)
  | functionControl _ ot eg tr dr bl m hm =>
    calc m.read32 (headerOffset c)
      _ = fcWord ot eg tr dr bl (s.block.headerOf c) := hm.header c hc
      _ = fcWord ot eg tr dr bl (s.block.registerHeader s.config.writeCmd) := by rw [hagree c hc]
      _ = _ := fcWord_headerWord ..
  | brightness _ r g b m cfg hm =>
    calc m.read32 (headerOffset c)
      _ = bcWord r g b (s.block.headerOf c) := hm.header c hc
      _ = bcWord r g b (s.block.registerHeader s.config.writeCmd) := by rw [hagree c hc]
      _ = _ := bcWord_headerWord ..
  | released => exact absurd hc (Nat.not_lt_zero c)
  | built _ n _ _ bus m hm => exact hm.header c hc

theorem extractLsb'_fcWord (ot eg tr dr bl : Bool) (w : Word) :
    (fcWord ot eg tr dr bl w).extractLsb' 26 6 = w.extractLsb' 26 6 := by
  rw [fcWord_eq]
  exact extractLsb'_headerWord_wc ..

theorem extractLsb'_bcWord (r g b : Brightness) (w : Word) :
    (bcWord r g b w).extractLsb' 26 6 = w.extractLsb' 26 6 := by
  apply BitVec.eq_of_getLsbD_eq
  intro k hk
  rw [BitVec.getLsbD_extractLsb', BitVec.getLsbD_extractLsb', bcWord_getLsbD, if_neg (by omega)]

/-- Settles O30: the configuration commands rewrite bits 25:0 at most, and no other command but the
three named writes a header. -/
theorem writeCommandBitsLast : Obligations.WriteCommandBitsLast := by
  unfold Obligations.WriteCommandBitsLast
  intro i s t hinv h hconstruct hfield hdeinit c hc
  cases exec_effect hinv h with
  | stop hstop =>
    obtain ⟨stop, rfl, -⟩ := hstop.elim
    rfl
  | replied | rejectOpen | shown => rfl
  | field _ hi => exact absurd hi hfield
  | slots _ p v m _ hm => exact congrArg _ (hm.header c)
  | functionControl _ ot eg tr dr bl m hm =>
    exact (congrArg _ (hm.header c hc)).trans (extractLsb'_fcWord ..)
  | brightness _ r g b m cfg hm =>
    exact (congrArg _ (hm.header c hc)).trans (extractLsb'_bcWord ..)
  | released hi => exact absurd hi hdeinit
  | built hi => exact absurd hi hconstruct

end Sys2Proof.Machine
end

section
/-! The rules of 20_memory.md, 30_encoding.md section 1 and 2, and 40_bitfield.md: where slots lie,
how words pack, how a frame leaves on the wire, and the codec on one word. -/

namespace Sys2Proof.Machine

/-! ### The layout -/

/-- Settles O24: the channel at an even offset `a` of a slot area is the one that many slots past
the header of chip `a / 28`. -/
theorem channelOffsetsFillTheSlotAreas : Obligations.ChannelOffsetsFillTheSlotAreas := by
  unfold Obligations.ChannelOffsetsFillTheSlotAreas
  refine ⟨fun j => ?region, fun j k => channelOffset_injective, fun c a => ⟨?into, ?onto⟩⟩
  case region =>
    unfold channelOffset
    omega
  case into =>
    rintro ⟨j, hj, rfl⟩
    unfold channelOffset
    omega
  case onto =>
    rintro ⟨hlt, harea, heven⟩
    refine ⟨12 * (a / 28) + (a % 28 - 4) / 2, by omega, ?_⟩
    unfold channelOffset
    omega

/-- Settles O25: reversal is arithmetic, and the table of a live driver holds the offset of every
channel. -/
theorem channelReversalIsAnInvolution : Obligations.ChannelReversalIsAnInvolution := by
  unfold Obligations.ChannelReversalIsAnInvolution
  refine ⟨fun n i h0 h1 => ?_, fun b i hinv hlife h0 h1 =>
    channelSlot_ok (Block.Inv.driverOK hinv hlife).channelsOK h0 h1⟩
  unfold reverseIndex
  omega

/-! ### Words from their parts -/

theorem toNat_append_eq {m n : Nat} (x : BitVec m) (y : BitVec n) :
    (x ++ y).toNat = x.toNat * 2 ^ n + y.toNat := by
  rw [BitVec.toNat_append, ← Nat.shiftLeft_add_eq_or_of_lt y.isLt, Nat.shiftLeft_eq]

/-- Settles O26: both sides are the four bytes weighted by powers of 256. -/
theorem wordReadIsTwoSlotReads : Obligations.WordReadIsTwoSlotReads := by
  unfold Obligations.WordReadIsTwoSlotReads
  intro m o
  simp only [Memory.read32, Memory.read16, toNat_append_eq, Nat.add_assoc o 2 1]
  omega

/-- Settles O27: appending bit vectors weights the earlier one by the later one's width. -/
theorem headerWordPacksItsFields : Obligations.HeaderWordPacksItsFields := by
  unfold Obligations.HeaderWordPacksItsFields
  intro wc ot eg tr dr bl r g b
  simp only [headerWord, fcField, bcField, toNat_append_eq, BitVec.toNat_ofBool]
  omega

/-! ### The wire -/

theorem wireBitsOfByte_length (order : WireBitOrder) (b : Byte) :
    (wireBitsOfByte order b).length = 8 := by
  cases order <;> rfl

theorem wireBits_length (order : WireBitOrder) (frame : List Byte) :
    (wireBits order frame).length = 8 * frame.length := by
  induction frame with
  | nil => rfl
  | cons b frame ih =>
    rw [wireBits, List.flatMap_cons, List.length_append, wireBitsOfByte_length, List.length_cons,
      ← wireBits, ih]
    omega

/-- Bit `j` of byte `k`'s eight bits is bit `8k + j` of the frame's. -/
theorem wireBits_getElem? (order : WireBitOrder) {frame : List Byte} {k j : Nat}
    (hk : k < frame.length) (hj : j < 8) :
    (wireBits order frame)[8 * k + j]? = (wireBitsOfByte order frame[k])[j]? := by
  induction frame generalizing k with
  | nil => simp at hk
  | cons b frame ih =>
    rw [wireBits, List.flatMap_cons, ← wireBits]
    cases k with
    | zero =>
      rw [List.getElem?_append_left (by rw [wireBitsOfByte_length]; omega)]
      simp
    | succ k =>
      rw [List.getElem?_append_right (by rw [wireBitsOfByte_length]; omega),
        wireBitsOfByte_length, show 8 * (k + 1) + j - 8 = 8 * k + j by omega,
        ih (Nat.lt_of_succ_lt_succ hk), List.getElem_cons_succ]

theorem wireBitsOfByte_msbFirst (b : Byte) {j : Nat} (hj : j < 8) :
    (wireBitsOfByte .msbFirst b)[j]? = some (b.getLsbD (7 - j)) := by
  rw [wireBitsOfByte]
  interval_cases j <;> rfl

/-- Settles O31: bytes are eight bits each, and inside a byte the first bit is bit 7. -/
theorem frameLeavesMostSignificantBitFirst : Obligations.FrameLeavesMostSignificantBitFirst := by
  unfold Obligations.FrameLeavesMostSignificantBitFirst
  refine ⟨rfl, fun frame => ⟨wireBits_length _ _, fun k j hk hj => ?_⟩⟩
  rw [wireBits_getElem? _ hk hj, wireBitsOfByte_msbFirst _ hj]

/-! ### Whole header fields -/

/-- Five one-bit writes are one write of the FC field (42_config.md R161). -/
theorem fcWord_eq_insertField (ot eg tr dr bl : Bool) (w : Word) :
    fcWord ot eg tr dr bl w = insertField w 21 5 (fcField ot eg tr dr bl).toNat := by
  apply BitVec.eq_of_getLsbD_eq
  intro k hk
  simp only [fcWord_getLsbD, insertField_getLsbD, truncBits_toNat 5 _ (Nat.le_refl 5),
    BitVec.testBit_toNat, hk, decide_true, Bool.true_and, Nat.reduceAdd]

/-- Three seven-bit writes are one write of the BC field (42_config.md R160). -/
theorem bcWord_eq_insertField (r g b : Brightness) (w : Word) :
    bcWord r g b w = insertField w 0 21 (bcField r g b).toNat := by
  apply BitVec.eq_of_getLsbD_eq
  intro k hk
  simp only [bcWord_getLsbD, insertField_getLsbD, truncBits_toNat 21 _ (Nat.le_refl 21),
    BitVec.testBit_toNat, hk, decide_true, Bool.true_and, Nat.zero_le, true_and, Nat.zero_add,
    Nat.sub_zero]

/-- Settles O28: each helper rewrites its chip's header word once, with the word that one write of
the whole field makes. -/
theorem headerRewritesEqualOneFieldWrite : Obligations.HeaderRewritesEqualOneFieldWrite := by
  unfold Obligations.HeaderRewritesEqualOneFieldWrite
  intro b c hinv hlife hc
  have hwf := hinv.1
  have hfits : headerOffset c + 4 ≤ b.frameLen := by
    have := (Block.Inv.driverOK hinv hlife).headersFit
    unfold headerOffset
    omega
  refine ⟨⟨_, writeFC_withBuf_ok hwf hfits, ?_⟩, ⟨_, writeBC_withBuf_ok hwf hfits, ?_⟩⟩
  · rw [fcWord_eq_insertField]
    exact setFieldRaw_ok hfits ..
  · rw [bcWord_eq_insertField]
    exact setFieldRaw_ok hfits ..

/-! ### The codec -/

/-- Settles O34: past the geometry check the codec's field is the value returned. -/
theorem getFieldReturnsTheField : Obligations.GetFieldReturnsTheField := by
  unfold Obligations.GetFieldReturnsTheField
  intro o b w s hrun ho hlen hb hw hbw
  exact ⟨_, execGetField_ok hrun ⟨ho, hlen, hb, hw, hbw⟩, Nat.mod_lt _ (Nat.two_pow_pos _), rfl⟩

theorem extractField_zero_width (word : Word) (b : Nat) : extractField word b 0 = 0 :=
  Nat.mod_one _

/-- Settles O35: an empty field leaves the word, writing a word back leaves the buffer, and reading
an empty field gives 0. -/
theorem zeroWidthFieldIsEmpty : Obligations.ZeroWidthFieldIsEmpty := by
  unfold Obligations.ZeroWidthFieldIsEmpty
  intro o b v s hrun hinv ho hlen hb hb32
  have hf : fieldOK s.block.frameLen o b 0 := ⟨ho, hlen, hb, le_refl 0, by omega⟩
  rw [exec_setField, exec_getField, execSetField_ok hrun hf, execGetField_ok hrun hf,
    Int.toNat_zero, insertField_zero_width, extractField_zero_width, Memory.write32_read32 hinv.1,
    Block.withBuf_self, State.withBlock_self]
  exact ⟨rfl, rfl⟩

/-- A command that writes the buffer leaves the driver running. -/
theorem State.Running.withBuf {s : State} (hrun : s.Running) (m : Memory) (r : Result) :
    ((s.withBlock (s.block.withBuf m)).reply r).Running := hrun

/-- SET_FIELD on a driver whose buffer has been written since. -/
theorem execSetField_withBuf_ok {o b w v : Int} {s : State} (hrun : s.Running)
    (hf : fieldOK s.block.frameLen o b w) {m : Memory} {r : Result} :
    execSetField o b w v ((s.withBlock (s.block.withBuf m)).reply r) =
      .next (((s.withBlock (s.block.withBuf (m.write32 o.toNat
        (insertField (m.read32 o.toNat) b.toNat w.toNat v)))).reply r).reply .ok) :=
  execSetField_ok (hrun.withBuf m r) hf

/-- Two SET_FIELDs at one offset store one word, the second field inserted after the first. -/
theorem execAll_setField_setField {o b w v b' w' v' : Int} {s : State} (hrun : s.Running)
    (hinv : s.Inv) (hf : fieldOK s.block.frameLen o b w) (hf' : fieldOK s.block.frameLen o b' w') :
    execAll [.setField o b w v, .setField o b' w' v'] s =
      .next (((s.withBlock (s.block.withBuf (s.block.buf.write32 o.toNat
        (insertField (insertField (s.block.buf.read32 o.toNat) b.toNat w.toNat v)
          b'.toNat w'.toNat v')))).reply .ok).reply .ok) := by
  rw [execAll_cons_of_next ((exec_setField ..).trans (execSetField_ok hrun hf)), execAll_singleton,
    exec_setField, execSetField_withBuf_ok hrun hf', Memory.read32_write32 hinv.1,
    Memory.write32_write32 hinv.1]

/-- Settles O36: in either order one word is stored, and disjoint insertions into it commute. -/
theorem disjointSetFieldsCommute : Obligations.DisjointSetFieldsCommute := by
  unfold Obligations.DisjointSetFieldsCommute
  intro o b w v b' w' v' s hrun hinv ho hlen hb hw hbw hw' hbw'
  have hf : fieldOK s.block.frameLen o b w := ⟨ho, hlen, hb, hw, by omega⟩
  have hf' : fieldOK s.block.frameLen o b' w' := ⟨ho, hlen, by omega, hw', hbw'⟩
  refine ⟨_, execAll_setField_setField hrun hinv hf hf', ?_⟩
  rw [execAll_setField_setField hrun hinv hf' hf,
    insertField_comm _ v' v (b := b'.toNat) (w := w'.toNat) (.inr (by omega))]

end Sys2Proof.Machine
end

section
/-! The rules of 41_channel.md: which percents are accepted and how they come back (R131, R132), one
channel among the others (R133), and every channel at once (R135). -/

namespace Sys2Proof.Machine

/-! ### Percents and PWM values -/

/-- The tie below an even number goes up to it. -/
theorem le_roundHE_iff_of_even {n : Int} (hn : n % 2 = 0) (q : Rat) :
    n ≤ roundHE q ↔ (n : Rat) - 1 / 2 ≤ q := by
  obtain ⟨hnear, htie⟩ := roundHE_spec q
  obtain ⟨hlow, hhigh⟩ := abs_le.mp hnear
  refine ⟨fun h => ?_, fun h => ?_⟩
  · have : (n : Rat) ≤ roundHE q := by exact_mod_cast h
    linarith
  · by_contra hlt
    have hbelow : roundHE q ≤ n - 1 := by omega
    have hbelow' : (roundHE q : Rat) ≤ n - 1 := by exact_mod_cast hbelow
    have heven : roundHE q % 2 = 0 := htie (by rw [abs_of_nonneg (by linarith)]; linarith)
    have habove : (n : Rat) - 2 < roundHE q := by linarith
    have habove' : n - 2 < roundHE q := by exact_mod_cast habove
    omega

theorem pctToPwm_exactHalfEven (p : Rat) :
    pctToPwm .exactHalfEven p = roundHE (p * 65535 / 100) := rfl

/-- Both bounds are ties beside an even number, 0 and 65536 (41_channel.md R137). -/
theorem pwmOK_pctToPwm_iff (p : Rat) :
    pwmOK (pctToPwm .exactHalfEven p) ↔ -50 / 65535 ≤ p ∧ p < 6553550 / 65535 := by
  have hlow : 0 ≤ roundHE (p * 65535 / 100) ↔ -50 / 65535 ≤ p := by
    rw [le_roundHE_iff_of_even (by decide)]
    constructor <;> intro h <;> norm_num at h ⊢ <;> linarith
  have hhigh : roundHE (p * 65535 / 100) ≤ 65535 ↔ p < 6553550 / 65535 := by
    rw [Int.le_iff_lt_add_one, ← not_le, ← not_le, le_roundHE_iff_of_even (by decide), not_le,
      not_le]
    constructor <;> intro h <;> norm_num at h ⊢ <;> linarith
  rw [pwmOK, pctToPwm_exactHalfEven, hlow, hhigh]

/-- Settles O38: `pwmOK_pctToPwm_iff`. -/
theorem acceptedPercentInterval : Obligations.AcceptedPercentInterval := by
  unfold Obligations.AcceptedPercentInterval
  exact fun p => ⟨pctToPwm_exactHalfEven p, pwmOK_pctToPwm_iff p⟩

/-- A tie would make twice a hundred slot values an odd multiple of 65535. -/
theorem pwmToPct_near (v : Slot) :
    |(v.toNat : Rat) * 100 / 65535 - pwmToPct v| < 1 / 2 := by
  refine lt_of_le_of_ne (roundHE_spec _).1 fun htie => ?_
  rcases eq_or_eq_neg_of_abs_eq htie with h | h
  · have hodd : (v.toNat : Rat) * 200 = 65535 * (2 * (pwmToPct v : Rat) + 1) := by linarith
    have hodd' : (v.toNat : Int) * 200 = 65535 * (2 * pwmToPct v + 1) := by exact_mod_cast hodd
    omega
  · have hodd : (v.toNat : Rat) * 200 = 65535 * (2 * (pwmToPct v : Rat) - 1) := by linarith
    have hodd' : (v.toNat : Int) * 200 = 65535 * (2 * pwmToPct v - 1) := by exact_mod_cast hodd
    omega

theorem pwmToPct_mem_percents (v : Slot) : 0 ≤ pwmToPct v ∧ pwmToPct v ≤ 100 := by
  have hv : (v.toNat : Rat) ≤ 65535 := by exact_mod_cast Nat.le_of_lt_succ v.isLt
  constructor
  · exact roundHE_zero.symm.trans_le (roundHE_mono (by positivity))
  · exact (roundHE_mono (q' := ((100 : Int) : Rat)) (by push_cast; linarith)).trans_eq
      (roundHE_intCast 100)

/-- Settles O39: RoundHE is monotone between the ends, and no slot value is a tie. -/
theorem slotPercentIsNearestAndNeverATie : Obligations.SlotPercentIsNearestAndNeverATie := by
  unfold Obligations.SlotPercentIsNearestAndNeverATie
  intro v
  obtain ⟨h0, h100⟩ := pwmToPct_mem_percents v
  exact ⟨h0, h100, (abs_sub_comm _ _).trans_lt (pwmToPct_near v)⟩

/-- Settles O40: five percents and a hundred and one whole ones, evaluated. -/
theorem tiePercentsGoToEven : Obligations.TiePercentsGoToEven := by
  unfold Obligations.TiePercentsGoToEven
  decide +kernel

/-- A percent stored and read back is less than one away: one half and less from the reading, and
at most 50/65535 from the storing (41_channel.md R138). -/
theorem pwmToPct_pctToPwm_near {p : Rat} (hp : pwmOK (pctToPwm .exactHalfEven p)) :
    |(pwmToPct (BitVec.ofInt 16 (pctToPwm .exactHalfEven p)) : Rat) - p| < 1 := by
  have hslot : ((BitVec.ofInt 16 (pctToPwm .exactHalfEven p)).toNat : Rat) =
      pctToPwm .exactHalfEven p := by exact_mod_cast toNat_ofInt_of_pwmOK hp
  obtain ⟨hread, hread'⟩ := abs_lt.mp (pwmToPct_near (BitVec.ofInt 16 (pctToPwm .exactHalfEven p)))
  obtain ⟨hstore, hstore'⟩ := abs_le.mp (roundHE_spec (p * 65535 / 100)).1
  rw [hslot, pctToPwm_exactHalfEven] at hread hread'
  rw [pctToPwm_exactHalfEven, abs_lt]
  constructor <;> linarith

/-! ### One channel -/

/-- Settles O43: GET_CHANNEL reads the slot SET_CHANNEL wrote, and two integers less than one apart
are equal. -/
theorem channelRoundTrip : Obligations.ChannelRoundTrip := by
  unfold Obligations.ChannelRoundTrip
  intro i p s hrun hinv hdefault h0 h1 hp0 hp100
  have hp : pwmOK (pctToPwm .exactHalfEven p) :=
    (pwmOK_pctToPwm_iff p).mpr ⟨by linarith, by linarith⟩
  have hset : exec (.setChannel i p) s = .next _ :=
    execSetChannel_ok hrun hinv h0 h1 (hdefault ▸ hp)
  have hget := execGetChannel_ok (hrun.withBuf _ _) ((exec_effect hinv hset).inv hinv) h0 h1
  have hnear := pwmToPct_pctToPwm_near hp
  simp only [State.reply_block, State.withBlock_block, Block.slotOf, Block.withBuf_buf,
    Block.withBuf_channels, Memory.read16_write16 hinv.1, hdefault] at hset hget
  refine ⟨_, _, hset, hget, hnear, fun hden => ?whole⟩
  case whole =>
    have hnum : (p.num : Rat) = p := Rat.coe_int_num_of_den_eq_one hden
    generalize pwmToPct _ = k at hnear ⊢
    rw [← hnum] at hnear ⊢
    have hint : |k - p.num| < 1 := by exact_mod_cast hnear
    rw [sub_eq_zero.mp (Int.abs_lt_one_iff.mp hint)]

/-- What SET_CHANNEL leaves of a running driver: the block as it was, or one slot written. -/
theorem execSetChannel_running {i : Int} {p : Rat} {s t : State} (hrun : s.Running) (hinv : s.Inv)
    (h : execSetChannel i p s = .next t) :
    t.block = s.block ∨ (channelOK s.block.channels i ∧
      t.block = s.block.withBuf (s.block.buf.write16
        (channelOffset (s.block.channels - 1 - i.toNat)) (BitVec.ofInt 16 (pctToPwm s.config.conversion p)))) := by
  by_cases hi : channelOK s.block.channels i
  · by_cases hp : pwmOK (pctToPwm s.config.conversion p)
    · rw [execSetChannel_ok hrun hinv hi.1 hi.2 hp] at h
      exact .inr ⟨hi, Host.Outcome.next.inj h ▸ rfl⟩
    · rw [execSetChannel_of_value_bad hrun hi hp] at h
      exact .inl (Host.Outcome.next.inj h ▸ rfl)
  · rw [execSetChannel_of_index_bad p hrun hi] at h
    exact .inl (Host.Outcome.next.inj h ▸ rfl)

theorem readChannel_withBuf_ok {b : Block} (h : b.ChannelsOK) {j : Int} (h0 : 0 ≤ j)
    (h1 : j < b.channels) {m : Memory} :
    readChannel j (b.withBuf m) = .ok (m.read16 (channelOffset (b.channels - 1 - j.toNat))) :=
  readChannel_ok (h.withBuf m) h0 h1

/-- Settles O44: the one slot written is another channel's than `j`'s and overlaps no header. -/
theorem channelsDoNotInterfere : Obligations.ChannelsDoNotInterfere := by
  unfold Obligations.ChannelsDoNotInterfere
  intro i j p s t hrun hinv h0 h1 hij h
  have hok := (hrun.driverOK hinv).channelsOK
  obtain heq | ⟨hi, heq⟩ := execSetChannel_running hrun hinv h <;> rw [heq]
  · exact ⟨rfl, ⟨_, readChannel_ok hok h0 h1⟩, fun c _ => rfl⟩
  · obtain ⟨hi0, hi1⟩ := hi
    refine ⟨?_, ⟨_, readChannel_ok hok h0 h1⟩, fun c _ => ?_⟩
    · rw [readChannel_withBuf_ok hok h0 h1, readChannel_ok hok h0 h1]
      exact congrArg _ (Memory.read16_write16_of_disjoint (channelOffset_disjoint
        (j := s.block.channels - 1 - j.toNat) (by omega)))
    · exact Memory.read32_write16_of_disjoint (headerOffset_disjoint c _)

/-! ### Every channel -/

/-- Settles O45: past the value check the loop over the channels writes their slots and nothing
outside them. -/
theorem setAllStoresEveryChannel : Obligations.SetAllStoresEveryChannel := by
  unfold Obligations.SetAllStoresEveryChannel
  intro p s hrun hinv
  simp only [exec_setAll]
  refine ⟨execSetAll_of_value_bad hrun, fun hp => ?stored⟩
  case stored =>
    obtain ⟨m, hexec, hm⟩ := execSetAll_ok hrun hinv hp
    have hslot : ∀ j, j < s.block.channels →
        ((m.read16 (channelOffset j)).toNat : Int) = pctToPwm s.config.conversion p :=
      fun j hj => by rw [hm.slot j hj, toNat_ofInt_of_pwmOK hp]
    exact ⟨_, hexec, hslot, hm.other, fun c _ => hm.header c, rfl, rfl, rfl⟩

/-- An accepted SET_CHANNEL is one slot write, after which the driver is as ready for the next. -/
theorem setChannel_writes {i : Int} {p : Rat} {s : State} (hrun : s.Running) (hinv : s.Inv)
    (h0 : 0 ≤ i) (h1 : i < s.block.channels) (hp : pwmOK (pctToPwm s.config.conversion p)) :
    ∃ t, exec (.setChannel i p) s = .next t ∧
      writeChannel i (BitVec.ofInt 16 (pctToPwm s.config.conversion p)) s.block = .ok t.block ∧
      t.Running ∧ t.Inv ∧ t.config = s.config ∧ t.block.channels = s.block.channels := by
  have hexec : exec (.setChannel i p) s = .next _ := execSetChannel_ok hrun hinv h0 h1 hp
  exact ⟨_, hexec, writeChannel_ok (hrun.driverOK hinv).channelsOK h0 h1 _, hrun.withBuf _ _,
    (exec_effect hinv hexec).inv hinv, rfl, rfl⟩

/-- SET_CHANNEL of each index of a list, one command after another, leaves the block that the same
slot writes leave. -/
theorem execAll_setChannels {p : Rat} {v : Slot} {s : State} (hrun : s.Running) (hinv : s.Inv)
    (hp : pwmOK (pctToPwm s.config.conversion p))
    (hv : v = BitVec.ofInt 16 (pctToPwm s.config.conversion p)) {is : List Nat}
    (his : ∀ i ∈ is, i < s.block.channels) :
    ∃ u, execAll (is.map fun (i : Nat) => .setChannel (i : Int) p) s = .next u ∧
      is.foldlM (fun b i => writeChannel (i : Nat) v b) s.block = .ok u.block := by
  induction is generalizing s with
  | nil => exact ⟨s, rfl, rfl⟩
  | cons i is ih =>
    obtain ⟨hi, his⟩ := List.forall_mem_cons.mp his
    obtain ⟨t, hexec, hwrite, hrun', hinv', hconfig, hchannels⟩ :=
      setChannel_writes hrun hinv (Int.natCast_nonneg i) (by exact_mod_cast hi) hp
    obtain ⟨u, hall, hfold⟩ := ih hrun' hinv' (hconfig ▸ hp) (hconfig ▸ hv) (hchannels ▸ his)
    refine ⟨u, ?_, ?_⟩
    · rw [List.map_cons, execAll_cons_of_next hexec, hall]
    · rw [List.foldlM_cons, hv, hwrite, ← hv]
      exact hfold

/-- Settles O46: SET_ALL's loop and the commands make the same slot writes in the same order. -/
theorem setAllEqualsSetChannelOfEachIndex : Obligations.SetAllEqualsSetChannelOfEachIndex := by
  unfold Obligations.SetAllEqualsSetChannelOfEachIndex
  intro p s hrun hinv hp
  obtain ⟨u, hall, hfold⟩ := execAll_setChannels hrun hinv hp rfl
    (is := List.range s.block.channels) fun i hi => List.mem_range.mp hi
  refine ⟨(s.withBlock u.block).reply .ok, u, ?_, hall, rfl⟩
  rw [exec_setAll, execSetAll, commonChecks_running hrun]
  simp only [if_pos hp, writeAllChannels, hfold]
  rfl

/-! ### A fresh driver -/

theorem pwmToPct_zero : pwmToPct 0x0000#16 = 0 := by decide +kernel

theorem Memory.read16_nil (o : Nat) : Memory.read16 [] o = 0x0000#16 := by
  simp [Memory.read16, Memory.unlisted]

/-- Rewritten headers leave every slot's bytes. -/
theorem HeadersRewritten.slot {n : Nat} {g : Word → Word} {m m' : Memory}
    (h : HeadersRewritten n g m m') (j : Nat) :
    m'.read16 (channelOffset j) = m.read16 (channelOffset j) :=
  Memory.read16_congr fun a _ _ => h.other a fun c _ => by
    have := headerOffset_disjoint c j
    omega

/-- A construction that ends Ready built the fresh block, with its headers written. -/
theorem execConstruct_ready_next {p : Int} {bus : BusConfig} {s t : State}
    (hlife : s.block.life ≠ .ready) (h : execConstruct p bus s = .next t)
    (hready : t.block.life = .ready) :
    ∃ m, t.block = (Block.fresh s.config p.toNat bus s.block).withBuf m ∧ 0 < p ∧ p % 4 = 0 ∧
      HeadersRewritten (chipCount p.toNat)
        (fun _ => (Block.fresh s.config p.toNat bus s.block).registerHeader s.config.writeCmd)
        [] m := by
  obtain ⟨m, hinit, hm⟩ := forEachChip_initHeader
    (blk := Block.fresh s.config p.toNat bus s.block) s.config.writeCmd Memory.wf_nil (le_refl _)
  have hbuilt := execConstruct_builds h hlife hready
  rw [hinit] at hbuilt
  obtain hstop | ⟨-, -, rfl | rfl | ⟨_, hpos, hmod, -, -⟩⟩ := execConstruct_next h
  · exact absurd (hstop.life_eq ▸ hready) hlife
  · exact absurd hready hlife
  · exact absurd hready hlife
  · exact ⟨m, (Except.ok.inj hbuilt).symm, hpos, hmod, hm⟩

/-- Settles O55: the fresh buffer is zero, its headers overlap no slot, and the slot value 0 is 0
percent. -/
theorem freshChannelsReadZero : Obligations.FreshChannelsReadZero := by
  unfold Obligations.FreshChannelsReadZero
  intro p i cfg s t hhalt hlife h hready h0 h1
  obtain ⟨m, hblock, hpos, hmod, hm⟩ := execConstruct_ready_next hlife h hready
  have hrun : t.Running := ⟨by rw [hblock]; exact hhalt, hready⟩
  have hinv : t.Inv := by
    rw [State.Inv, hblock]
    exact Block.inv_of_driverOK hm.wf
      (hm.bound _ (le_refl _) fun _ hc => absurd hc List.not_mem_nil) rfl
      (Block.fresh_driverOK (n := p.toNat) s.config (by omega) (by omega) cfg s.block)
  have hzero (j : Nat) : t.block.slotOf j = 0x0000#16 := by
    rw [hblock]
    exact (hm.slot j).trans (Memory.read16_nil _)
  rw [exec_getChannel, execGetChannel_ok hrun hinv h0 h1, hzero, pwmToPct_zero]

end Sys2Proof.Machine
end

section
/-! Idempotence (20_memory.md, section 4): a command issued twice writes the same bytes over
again. -/

namespace Sys2Proof.Machine

/-! ### The same bytes over again -/

theorem append_inj {m n : Nat} {x x' : BitVec m} {y y' : BitVec n} (h : x ++ y = x' ++ y') :
    x = x' ∧ y = y' := by
  refine ⟨?_, ?_⟩
  · simpa only [BitVec.extractLsb'_append_eq_left] using congrArg (BitVec.extractLsb' n m) h
  · simpa only [BitVec.extractLsb'_append_eq_right] using congrArg (BitVec.extractLsb' 0 n) h

/-- Equal 16-bit values have equal bytes. -/
theorem Memory.read_eq_of_read16_eq {m m' : Memory} {o : Nat} (h : m.read16 o = m'.read16 o)
    {x : Nat} (hlow : o ≤ x) (hhigh : x < o + 2) : m.read x = m'.read x := by
  obtain ⟨hfirst, hsecond⟩ := append_inj h
  obtain rfl | rfl : x = o ∨ x = o + 1 := by omega
  · exact hfirst
  · exact hsecond

/-- Equal 32-bit values have equal bytes. -/
theorem Memory.read_eq_of_read32_eq {m m' : Memory} {o : Nat} (h : m.read32 o = m'.read32 o)
    {x : Nat} (hlow : o ≤ x) (hhigh : x < o + 4) : m.read x = m'.read x := by
  obtain ⟨h, hfourth⟩ := append_inj h
  obtain ⟨h, hthird⟩ := append_inj h
  obtain ⟨hfirst, hsecond⟩ := append_inj h
  obtain rfl | rfl | rfl | rfl : x = o ∨ x = o + 1 ∨ x = o + 2 ∨ x = o + 3 := by omega
  · exact hfirst
  · exact hsecond
  · exact hthird
  · exact hfourth

theorem SlotsWritten.again {p : Nat → Prop} {v : Slot} {m m' m'' : Memory}
    (h : SlotsWritten p v m m') (h' : SlotsWritten p v m' m'') : m'' = m' := by
  refine Memory.ext h'.wf h.wf fun a => ?_
  by_cases hslot : ∃ j, p j ∧ channelOffset j ≤ a ∧ a < channelOffset j + 2
  · obtain ⟨j, hj, hlow, hhigh⟩ := hslot
    exact Memory.read_eq_of_read16_eq ((h'.slot j hj).trans (h.slot j hj).symm) hlow hhigh
  · exact h'.other a fun j hj => by
      by_contra hin
      exact hslot ⟨j, hj, by omega, by omega⟩

theorem HeadersRewritten.again {n : Nat} {g : Word → Word} (hg : ∀ w, g (g w) = g w)
    {m m' m'' : Memory} (h : HeadersRewritten n g m m') (h' : HeadersRewritten n g m' m'') :
    m'' = m' := by
  refine Memory.ext h'.wf h.wf fun a => ?_
  by_cases hheader : ∃ c, c < n ∧ headerOffset c ≤ a ∧ a < headerOffset c + 4
  · obtain ⟨c, hc, hlow, hhigh⟩ := hheader
    refine Memory.read_eq_of_read32_eq ?_ hlow hhigh
    rw [h'.header c hc, h.header c hc, hg]
  · exact h'.other a fun c hc => by
      by_contra hin
      exact hheader ⟨c, hc, by omega, by omega⟩

theorem fcWord_idem (ot eg tr dr bl : Bool) (w : Word) :
    fcWord ot eg tr dr bl (fcWord ot eg tr dr bl w) = fcWord ot eg tr dr bl w := by
  rw [fcWord_eq_insertField, fcWord_eq_insertField, insertField_idem]

theorem bcWord_idem (r g b : Brightness) (w : Word) :
    bcWord r g b (bcWord r g b w) = bcWord r g b w := by
  rw [bcWord_eq_insertField, bcWord_eq_insertField, insertField_idem]

/-! ### A command issued twice -/

theorem setField_again {o b w v : Int} {s t u : State} (hrun : s.Running) (hinv : s.Inv)
    (h : execSetField o b w v s = .next t) (h' : execSetField o b w v t = .next u) :
    u.block = t.block := by
  by_cases hf : fieldOK s.block.frameLen o b w
  · rw [execSetField_ok hrun hf] at h
    obtain rfl := Host.Outcome.next.inj h
    rw [execSetField_withBuf_ok hrun hf, Memory.read32_write32 hinv.1,
      Memory.write32_write32 hinv.1, insertField_idem] at h'
    exact Host.Outcome.next.inj h' ▸ rfl
  · rw [execSetField_of_geometry_bad v hrun hf] at h
    obtain rfl := Host.Outcome.next.inj h
    rw [execSetField_of_geometry_bad (s := s.reply _) v hrun hf] at h'
    exact Host.Outcome.next.inj h' ▸ rfl

theorem setChannel_again {i : Int} {p : Rat} {s t u : State} (hrun : s.Running) (hinv : s.Inv)
    (h : execSetChannel i p s = .next t) (h' : execSetChannel i p t = .next u) :
    u.block = t.block := by
  have hinv' : t.Inv := (exec_effect (i := .setChannel i p) hinv h).inv hinv
  by_cases hi : channelOK s.block.channels i
  · by_cases hp : pwmOK (pctToPwm s.config.conversion p)
    · obtain ⟨h0, h1⟩ := hi
      rw [execSetChannel_ok hrun hinv h0 h1 hp] at h
      obtain rfl := Host.Outcome.next.inj h
      rw [execSetChannel_ok (hrun.withBuf _ _) hinv' h0 h1 hp] at h'
      have hone := slotsWritten_one hinv.1 (s.block.channels - 1 - i.toNat)
        (BitVec.ofInt 16 (pctToPwm s.config.conversion p))
      rw [← Host.Outcome.next.inj h']
      exact congrArg (s.block.withBuf ·) (hone.again (slotsWritten_one hone.wf _ _))
    · rw [execSetChannel_of_value_bad hrun hi hp] at h
      obtain rfl := Host.Outcome.next.inj h
      rw [execSetChannel_of_value_bad (s := s.reply _) hrun hi hp] at h'
      exact Host.Outcome.next.inj h' ▸ rfl
  · rw [execSetChannel_of_index_bad p hrun hi] at h
    obtain rfl := Host.Outcome.next.inj h
    rw [execSetChannel_of_index_bad (s := s.reply _) p hrun hi] at h'
    exact Host.Outcome.next.inj h' ▸ rfl

theorem setAll_again {p : Rat} {s t u : State} (hrun : s.Running) (hinv : s.Inv)
    (h : execSetAll p s = .next t) (h' : execSetAll p t = .next u) : u.block = t.block := by
  have hinv' : t.Inv := (exec_effect (i := .setAll p) hinv h).inv hinv
  by_cases hp : pwmOK (pctToPwm s.config.conversion p)
  · obtain ⟨m, hexec, hm⟩ := execSetAll_ok hrun hinv hp
    obtain rfl := Host.Outcome.next.inj (hexec.symm.trans h)
    obtain ⟨m', hexec', hm'⟩ := execSetAll_ok (hrun.withBuf _ _) hinv' hp
    rw [← Host.Outcome.next.inj (hexec'.symm.trans h')]
    exact congrArg (s.block.withBuf ·) (hm.again hm')
  · rw [execSetAll_of_value_bad hrun hp] at h
    obtain rfl := Host.Outcome.next.inj h
    rw [execSetAll_of_value_bad (s := s.reply _) hrun hp] at h'
    exact Host.Outcome.next.inj h' ▸ rfl

theorem setFunctionControl_again {ot eg tr dr bl : Bool} {s t u : State} (hrun : s.Running)
    (hinv : s.Inv) (h : execSetFunctionControl ot eg tr dr bl s = .next t)
    (h' : execSetFunctionControl ot eg tr dr bl t = .next u) : u.block = t.block := by
  have hinv' : t.Inv := (exec_effect (i := .setFunctionControl ot eg tr dr bl) hinv h).inv hinv
  obtain ⟨m, hexec, hm⟩ := execSetFunctionControl_ok hrun hinv
  obtain rfl := Host.Outcome.next.inj (hexec.symm.trans h)
  obtain ⟨m', hexec', hm'⟩ := execSetFunctionControl_ok
    (s := (s.withBlock ((s.block.withFunctionControl ot eg tr dr bl).withBuf m)).reply .ok)
    hrun hinv'
  rw [← Host.Outcome.next.inj (hexec'.symm.trans h')]
  exact congrArg ((s.block.withFunctionControl ot eg tr dr bl).withBuf ·)
    (hm.again (fcWord_idem ot eg tr dr bl) hm')

/-- The block but for its log. -/
theorem setBrightness_again {r g b : Int} {s t u : State} (hrun : s.Running)
    (hinv : s.Inv) (h : execSetBrightness r g b s = .next t)
    (h' : execSetBrightness r g b t = .next u) :
    u.block = { t.block with txlog := u.block.txlog } ∧
      u.block.txlog.length = t.block.txlog.length + 1 := by
  have hinv' : t.Inv := (exec_effect (i := .setBrightness r g b) hinv h).inv hinv
  obtain ⟨cfg, hbus⟩ := hrun.bus_opened hinv
  obtain ⟨m, hexec, hm⟩ := execSetBrightness_ok (r := r) (g := g) (b := b) hrun hinv hbus
  obtain rfl := Host.Outcome.next.inj (hexec.symm.trans h)
  obtain ⟨m', hexec', hm'⟩ := execSetBrightness_ok (r := r) (g := g) (b := b)
    (s := (s.withBlock ((s.block.withBrightness (truncBrightness r) (truncBrightness g)
      (truncBrightness b)).withBuf m)).afterEmit cfg) hrun hinv' hbus
  obtain rfl := hm.again (bcWord_idem _ _ _) hm'
  rw [← Host.Outcome.next.inj (hexec'.symm.trans h')]
  exact ⟨rfl, State.afterEmit_txlog_length _ _⟩

theorem show_again {s t u : State} (hrun : s.Running) (hinv : s.Inv)
    (h : execShow s = .next t) (h' : execShow t = .next u) :
    u.block = { t.block with txlog := u.block.txlog } ∧
      u.block.txlog.length = t.block.txlog.length + 1 := by
  obtain ⟨cfg, hbus⟩ := hrun.bus_opened hinv
  obtain rfl := Host.Outcome.next.inj ((execShow_ok hrun hbus).symm.trans h)
  rw [← Host.Outcome.next.inj ((execShow_ok (hrun.afterEmit cfg) hbus).symm.trans h')]
  exact ⟨rfl, State.afterEmit_txlog_length _ _⟩

/-- Settles O51, one lemma for each command; SET_ALL_OFF is SET_ALL 0. -/
theorem stagingCommandsAreIdempotent : Obligations.StagingCommandsAreIdempotent := by
  unfold Obligations.StagingCommandsAreIdempotent
  intro i s t u hrun hinv h h'
  refine ⟨fun hi => ?staged, fun hi => ?sent⟩
  case staged =>
    cases i with
    | setField => exact setField_again hrun hinv h h'
    | setChannel => exact setChannel_again hrun hinv h h'
    | setAll => exact setAll_again hrun hinv h h'
    | setAllOff =>
      exact setAll_again hrun hinv ((execSetAll_zero s).trans h) ((execSetAll_zero t).trans h')
    | setFunctionControl => exact setFunctionControl_again hrun hinv h h'
    | construct | getField | getChannel | setBrightness | showFrame | deinit =>
      simp [Instr.tag] at hi
  case sent =>
    cases i with
    | setBrightness => exact setBrightness_again hrun hinv h h'
    | showFrame => exact show_again hrun hinv h h'
    | construct | setField | getField | setChannel | getChannel | setAll | setAllOff
    | setFunctionControl | deinit => simp [Instr.tag] at hi

end Sys2Proof.Machine
end
